-- ==== Sys2Proof/Word.lean ====
section
/-! DEFINITION. The value types of R7 and the widths of R5, R70, R71: what the ports and registers carry, and the
mathematical integers the rules compute on. A level is "a mathematical integer" (R7, R119): its type is `Int`. -/

namespace Sys2Proof

/-- A bit (R7): an element of 0 and 1; `true` is bit 1. -/
abbrev Bit := Bool

/-- A 3-bit vector (R5, `LEVEL_W` = 3): what `din`, `out0`, `out1`, LEVEL and HOLD carry. -/
abbrev Lane := BitVec 3

/-- A scheme code (R5, `SCHEME_W` = 4), legal or not. -/
abbrev SchemeCode := BitVec 4

/-- The command word `pv[9:0]` (R70). -/
abbrev CommandWord := BitVec 10

/-- The result word `ov[12:0]` (R71). -/
abbrev ResultBits := BitVec 13

end Sys2Proof
end

