-- ==== Sys2Proof/Syntax.lean ====
section
/-! DEFINITION. The instructions of the opcode map (R80), one constructor a row, and the assembly syntax of R83. -/

namespace Sys2Proof

/-- The direction of a call (R10, R27): 0 = ENC, 1 = DEC. -/
inductive Dir where
  | enc
  | dec
  deriving DecidableEq, Repr

/-- The closed enumeration of the nine schemes (R1, R75). -/
inductive Scheme where
  | uni
  | nrzl
  | nrzi
  | rz
  | man
  | dman
  | ami
  | pst
  | twoB1Q
  deriving DecidableEq, Repr

/-- The 21 rows of the opcode map (R80). A field a command ignores (R70) is no part of its instruction; an illegal START
word (R81) is no row and no constructor (log 9). -/
inductive Instr where
  | nop
  | startEncUni
  | startEncNrzl
  | startEncNrzi
  | startEncRz
  | startEncMan
  | startEncDman
  | startEncAmi
  | startEncPst
  | startEnc2B1Q
  | startDecUni
  | startDecNrzl
  | startDecNrzi
  | startDecRz
  | startDecMan
  | startDecDman
  | startDecAmi
  | startDecPst
  | startDec2B1Q
  | push (din : Lane)
  | endCall
  deriving DecidableEq, Repr

/-- A line of the assembly syntax (R83): the four commands, START with a numeric scheme code, and the two
pseudo-instructions that stand for a whole call. The text of ENCODE is a list of characters and the numbers are integers,
as written: `WellFormed.lean` says which are legal. -/
inductive Asm where
  | nop
  | start (d : Dir) (S : Scheme)
  | startCode (d : Dir) (k : Nat)
  | push (n : Int)
  | endCall
  | encode (S : Scheme) (text : List Char)
  | decode (S : Scheme) (signal : List Int)
  deriving DecidableEq, Repr

end Sys2Proof
end

