-- ==== Sys2Proof/WellFormed.lean ====
section
/-! DEFINITION. Which terms of the syntax are legal. An `Instr` is legal by its types: its only operand is a 3-bit vector and
R76 gives all eight values a meaning in both directions. A line of assembly (R83) carries numbers and text, which are checked. -/

namespace Sys2Proof

/-- Every instruction is well formed (R70: `cmd` has no illegal value, an ignored field may hold anything, and each of the
eight values of `din` has an effect by R76). -/
def Instr.wellFormed : Instr → Bool
  | .nop | .endCall | .push _ => true
  | .startEncUni | .startEncNrzl | .startEncNrzi | .startEncRz | .startEncMan => true
  | .startEncDman | .startEncAmi | .startEncPst | .startEnc2B1Q => true
  | .startDecUni | .startDecNrzl | .startDecNrzi | .startDecRz | .startDecMan => true
  | .startDecDman | .startDecAmi | .startDecPst | .startDec2B1Q => true

/-- `−4..3`: the integers a 3-bit port can carry (R5, R83). -/
def fitsLane (v : Int) : Bool := decide (-4 ≤ v ∧ v ≤ 3)

/-- A character of a bit string (R7). -/
def isBitChar (c : Char) : Bool := c == '0' || c == '1'

/-- A legal line of assembly (R83): a numeric scheme code is 0..15, the integer of PUSH is −4..3, the text of ENCODE holds
only `0` and `1` (of the two answers R83 allows to a malformed character this assembler rejects the program: log 16), the
levels of DECODE are −4..3. -/
def Asm.wellFormed : Asm → Bool
  | .nop => true
  | .start _ _ => true
  | .startCode _ k => decide (k ≤ 15)
  | .push n => fitsLane n
  | .endCall => true
  | .encode _ text => text.all isBitChar
  | .decode _ signal => signal.all fitsLane

end Sys2Proof
end

