-- ==== Sys2Proof/Decode.lean ====
section
/-! DEFINITION. The command word: its fields (R70), the codes (R74, R75), the decoder, total on every word and rejecting the
illegal START words by name (R81), the encoder and the rows of the opcode map (R80), and the assembler (R83, R84). -/

namespace Sys2Proof

/-! ### Fields of the command word (R70) -/

def cmdField (w : CommandWord) : BitVec 2 := w.extractLsb' 8 2

def dirField (w : CommandWord) : Dir := if w.getLsbD 7 then .dec else .enc

def schemeField (w : CommandWord) : SchemeCode := w.extractLsb' 3 4

def dinField (w : CommandWord) : Lane := w.extractLsb' 0 3

/-! ### Codes (R27, R74, R75) -/

/-- `dir`: 0 = ENC, 1 = DEC (R27, R70). -/
def Dir.code : Dir → BitVec 1
  | .enc => 0#1
  | .dec => 1#1

/-- The scheme codes 1..9 (R75). -/
def Scheme.code : Scheme → SchemeCode
  | .uni => 1#4
  | .nrzl => 2#4
  | .nrzi => 3#4
  | .rz => 4#4
  | .man => 5#4
  | .dman => 6#4
  | .ami => 7#4
  | .pst => 8#4
  | .twoB1Q => 9#4

/-- The 4-bit code as an optional scheme (R75): 0 and 10..15 name none. -/
def schemeOfCode (c : SchemeCode) : Option Scheme :=
  match c.toNat with
  | 1 => some .uni
  | 2 => some .nrzl
  | 3 => some .nrzi
  | 4 => some .rz
  | 5 => some .man
  | 6 => some .dman
  | 7 => some .ami
  | 8 => some .pst
  | 9 => some .twoB1Q
  | _ => none

/-- The START row of a direction and a scheme (R80). -/
def startInstr : Dir → Scheme → Instr
  | .enc, .uni => .startEncUni
  | .enc, .nrzl => .startEncNrzl
  | .enc, .nrzi => .startEncNrzi
  | .enc, .rz => .startEncRz
  | .enc, .man => .startEncMan
  | .enc, .dman => .startEncDman
  | .enc, .ami => .startEncAmi
  | .enc, .pst => .startEncPst
  | .enc, .twoB1Q => .startEnc2B1Q
  | .dec, .uni => .startDecUni
  | .dec, .nrzl => .startDecNrzl
  | .dec, .nrzi => .startDecNrzi
  | .dec, .rz => .startDecRz
  | .dec, .man => .startDecMan
  | .dec, .dman => .startDecDman
  | .dec, .ami => .startDecAmi
  | .dec, .pst => .startDecPst
  | .dec, .twoB1Q => .startDec2B1Q

/-! ### The decoder -/

/-- What a command word is: a row of the opcode map, or a START word that selects no scheme (R81), rejected by name with
the fields the START latches all the same (R93). -/
inductive Decoded where
  | instr (i : Instr)
  | illegalSelection (d : Dir) (code : SchemeCode)
  deriving DecidableEq, Repr

/-- The decoder, total on the 1024 words (R70, R74, R80, R81). -/
def decode (w : CommandWord) : Decoded :=
  match (cmdField w).toNat with
  | 0 => .instr .nop
  | 1 =>
    match schemeOfCode (schemeField w) with
    | some S => .instr (startInstr (dirField w) S)
    | none => .illegalSelection (dirField w) (schemeField w)
  | 2 => .instr (.push (dinField w))
  | _ => .instr .endCall

/-- The instruction of an opcode-table word: the low ten bits are `pv[9:0]`, numbered as the table numbers them; a number
that needs more than ten bits is no command word (log 15). An illegal START word is no row: none. -/
def decodeTableWord (_nbits w : Nat) : Option Instr :=
  if w < 1024 then
    match decode (BitVec.ofNat 10 w) with
    | .instr i => some i
    | .illegalSelection _ _ => none
  else none

/-! ### The encoder and the rows of the opcode map -/

/-- The word of an instruction, its ignored fields zero (R80's column `match`, R83: "Ignored fields are assembled as
zero"). -/
def encode : Instr → CommandWord
  | .nop => 0x000#10
  | .startEncUni => 0x108#10
  | .startEncNrzl => 0x110#10
  | .startEncNrzi => 0x118#10
  | .startEncRz => 0x120#10
  | .startEncMan => 0x128#10
  | .startEncDman => 0x130#10
  | .startEncAmi => 0x138#10
  | .startEncPst => 0x140#10
  | .startEnc2B1Q => 0x148#10
  | .startDecUni => 0x188#10
  | .startDecNrzl => 0x190#10
  | .startDecNrzi => 0x198#10
  | .startDecRz => 0x1A0#10
  | .startDecMan => 0x1A8#10
  | .startDecDman => 0x1B0#10
  | .startDecAmi => 0x1B8#10
  | .startDecPst => 0x1C0#10
  | .startDec2B1Q => 0x1C8#10
  | .push din => 0x200#10 ||| din.setWidth 10
  | .endCall => 0x300#10

/-- A row of the opcode map (R80): its bits `pattern` under `mask`. -/
structure OpcodeRow where
  mnemonic : String
  mask : CommandWord
  pattern : CommandWord
  deriving DecidableEq, Repr

/-- "a word `w` selects a row when `(w & mask) == match`" (R80). -/
def OpcodeRow.selects (r : OpcodeRow) (w : CommandWord) : Bool := (w &&& r.mask) == r.pattern

/-- The row of the opcode map an instruction stands for (R80). -/
def Instr.row : Instr → OpcodeRow
  | .nop => ⟨"NOP", 0x300#10, 0x000#10⟩
  | .startEncUni => ⟨"START.ENC.UNI", 0x3F8#10, 0x108#10⟩
  | .startEncNrzl => ⟨"START.ENC.NRZL", 0x3F8#10, 0x110#10⟩
  | .startEncNrzi => ⟨"START.ENC.NRZI", 0x3F8#10, 0x118#10⟩
  | .startEncRz => ⟨"START.ENC.RZ", 0x3F8#10, 0x120#10⟩
  | .startEncMan => ⟨"START.ENC.MAN", 0x3F8#10, 0x128#10⟩
  | .startEncDman => ⟨"START.ENC.DMAN", 0x3F8#10, 0x130#10⟩
  | .startEncAmi => ⟨"START.ENC.AMI", 0x3F8#10, 0x138#10⟩
  | .startEncPst => ⟨"START.ENC.PST", 0x3F8#10, 0x140#10⟩
  | .startEnc2B1Q => ⟨"START.ENC.2B1Q", 0x3F8#10, 0x148#10⟩
  | .startDecUni => ⟨"START.DEC.UNI", 0x3F8#10, 0x188#10⟩
  | .startDecNrzl => ⟨"START.DEC.NRZL", 0x3F8#10, 0x190#10⟩
  | .startDecNrzi => ⟨"START.DEC.NRZI", 0x3F8#10, 0x198#10⟩
  | .startDecRz => ⟨"START.DEC.RZ", 0x3F8#10, 0x1A0#10⟩
  | .startDecMan => ⟨"START.DEC.MAN", 0x3F8#10, 0x1A8#10⟩
  | .startDecDman => ⟨"START.DEC.DMAN", 0x3F8#10, 0x1B0#10⟩
  | .startDecAmi => ⟨"START.DEC.AMI", 0x3F8#10, 0x1B8#10⟩
  | .startDecPst => ⟨"START.DEC.PST", 0x3F8#10, 0x1C0#10⟩
  | .startDec2B1Q => ⟨"START.DEC.2B1Q", 0x3F8#10, 0x1C8#10⟩
  | .push _ => ⟨"PUSH", 0x300#10, 0x200#10⟩
  | .endCall => ⟨"END", 0x300#10, 0x300#10⟩

/-- The encode rows of the opcode map, in the table's order (R80). -/
def encodeRows : List OpcodeRow :=
  [Instr.startEncUni.row, Instr.startEncNrzl.row, Instr.startEncNrzi.row, Instr.startEncRz.row, Instr.startEncMan.row,
   Instr.startEncDman.row, Instr.startEncAmi.row, Instr.startEncPst.row, Instr.startEnc2B1Q.row]

/-- The decode rows of the opcode map, in the table's order (R80). -/
def decodeRows : List OpcodeRow :=
  [Instr.startDecUni.row, Instr.startDecNrzl.row, Instr.startDecNrzi.row, Instr.startDecRz.row, Instr.startDecMan.row,
   Instr.startDecDman.row, Instr.startDecAmi.row, Instr.startDecPst.row, Instr.startDec2B1Q.row]

/-- The opcode map: 21 rows (R80). -/
def opcodeTable : List OpcodeRow :=
  [Instr.nop.row] ++ encodeRows ++ decodeRows ++ [(Instr.push 0#3).row, Instr.endCall.row]

/-- The illegal words (R81): `cmd` = 01 and `scheme` in 0, 10..15. -/
def isIllegalStart (w : CommandWord) : Bool :=
  cmdField w == 1#2 && (schemeField w == 0#4 || decide (10 ≤ (schemeField w).toNat))

/-! ### The assembler (R83, R84) -/

/-- `pv = (cmd << 8) | (dir << 7) | (scheme << 3) | (din & 7)` (R84). -/
def assembleWord (cmd : BitVec 2) (d : Dir) (code : SchemeCode) (din : Lane) : CommandWord :=
  (cmd.setWidth 10 <<< 8) ||| (d.code.setWidth 10 <<< 7) ||| (code.setWidth 10 <<< 3) ||| din.setWidth 10

def nopWord : CommandWord := assembleWord 0b00#2 .enc 0#4 0#3

def startWord (d : Dir) (code : SchemeCode) : CommandWord := assembleWord 0b01#2 d code 0#3

def pushWord (din : Lane) : CommandWord := assembleWord 0b10#2 .enc 0#4 din

def endWord : CommandWord := assembleWord 0b11#2 .enc 0#4 0#3

/-- The operand field of a bit (R76): 0 or 1. -/
def bitLane (b : Bit) : Lane := if b then 1#3 else 0#3

/-- The words of a line of assembly, ignored fields zero (R83, R84); none for an ill-formed line. -/
def Asm.words (a : Asm) : Option (List CommandWord) :=
  if a.wellFormed then
    some <| match a with
      | .nop => [nopWord]
      | .start d S => [startWord d S.code]
      | .startCode d k => [startWord d (BitVec.ofNat 4 k)]
      | .push n => [pushWord (BitVec.ofInt 3 n)]
      | .endCall => [endWord]
      | .encode S text => [startWord .enc S.code] ++ text.map (fun c => pushWord (bitLane (c == '1'))) ++ [endWord]
      | .decode S signal => [startWord .dec S.code] ++ signal.map (fun v => pushWord (BitVec.ofInt 3 v)) ++ [endWord]
  else none

end Sys2Proof
end

