-- ==== Sys2Proof/Config.lean ====
section
/-! DEFINITION. What is fixed for a machine (R5) and the values the spec leaves without a value. -/

namespace Sys2Proof

/-- The parameter `P_ODD_2B1Q` (R5, D12): what END does with the dangling first bit of a 2B1Q pair. The spec leaves it
OPEN; both values are modelled. The value a machine has stands in `State.policy`, which no step writes (log 3). -/
inductive OddPolicy where
  | truncate
  | reject
  deriving DecidableEq, Repr

/-- `L_INIT` (R5, R33): the carried level at the start of every call, for every scheme in both directions (C15). -/
def Config.initialLevel : Int := 1

/-- FREE VALUE (log 5): HOLD after an RST step, which R33 and R211 leave unspecified; applied to `State.freeIndex`, so that
two resets need not agree. -/
opaque Config.freeHold : Nat → Lane

/-- FREE VALUE (log 6): `tc_3` of an integer outside −4..3, which R7 does not define and R119 says the engine never meets. -/
opaque Config.freeLane : Int → Lane

end Sys2Proof
end

