-- ==== Sys2Proof/Machine/State.lean ====
section
/-! DEFINITION. The state of the engine (R20), plain data, with the host's input stream and the latest step's output beside
it, the reasons a step can stop, and the state after reset (R33). -/

namespace Sys2Proof.Machine

/-- ST (R24): the call phase. -/
inductive St where
  | idle
  | run
  | done
  | err
  deriving DecidableEq, Repr

/-- ECODE (R79, R180). The codes 6 and 7 are never produced (U12), so they are no constructors (log 10). -/
inductive ECode where
  | eNone
  | eSelect
  | eTransition
  | eSignal
  | eOddlen
  | eBadbit
  deriving DecidableEq, Repr

/-- An element of the output stream (R30, R53): a level in an ENC call, a bit in a DEC call. -/
inductive Element where
  | level (v : Int)
  | bit (b : Bit)
  deriving DecidableEq, Repr

/-- What the host presents in one step: the pin `rst` and the command word `pv` (R70, R211). -/
structure PortInput where
  rst : Bool
  pv : CommandWord
  deriving DecidableEq, Repr

/-- Why the machine stops with a fault. -/
inductive Fault where
  /-- Raised by PUSH in ST = RUN when SCHEME holds no legal code (0 or 10..15). R96: "The case is exhaustive because ST = RUN
  implies 1 ≤ SCHEME ≤ 9", so the spec gives no codec for it and no run from reset reaches it. SAFE (log 7). -/
  | noCodecSelected
  deriving DecidableEq, Repr

/-- Why a step has no meaning. -/
inductive Refusal where
  /-- An instruction without a meaning yet. Raised by no arm of this model. SAFE. -/
  | notModelled (mnemonic : String)
  /-- Raised by `step` when the host presents nothing: "each step is caused by a command the host presents" (R26), so there is
  no step to take. SAFE (log 1). -/
  | noCommandPresented
  deriving DecidableEq, Repr

/-- The state. The first seven fields are the record of R20, "the whole state of the engine". -/
structure State where
  /-- LEVEL (R21): the carried level, 3-bit two's complement. -/
  level : Lane
  /-- HOLD (R22): the first element of a 2-element input unit, meaningful only while `phase` is set. -/
  hold : Lane
  /-- PHASE (R23): HOLD holds the first element of an unfinished unit. -/
  phase : Bool
  /-- DIR (R27). -/
  dir : Dir
  /-- SCHEME (R27): any 4-bit value is latched. -/
  scheme : SchemeCode
  /-- ST (R24). -/
  st : St
  /-- ECODE (R27). -/
  ecode : ECode
  /-- The elements emitted by the latest step, first element first: the lanes of the result word (R71, R101; log 2). -/
  out : List Element
  /-- The parameter P_ODD_2B1Q (R5, R32), carried here unchanged (the model's own field, log 3). -/
  policy : OddPolicy
  /-- What the host presents in the coming steps, next first (the model's own field, log 1). -/
  pending : List PortInput
  /-- The number of the next free value (the model's own field, log 5). -/
  freeIndex : Nat
  deriving DecidableEq, Repr

/-- The machine right after pin reset (R33, column "after pin reset"; R211). HOLD has no value in the spec; 0 is a DESIGN CHOICE
(log 4). The policy is the spec's default (R5). Nothing is presented yet (log 1). -/
def State.reset : State where
  level := 1#3
  hold := 0#3
  phase := false
  dir := .enc
  scheme := 0#4
  st := .idle
  ecode := .eNone
  out := []
  policy := .truncate
  pending := []
  freeIndex := 0

end Sys2Proof.Machine
end

