-- ==== Sys2Proof/Machine/Operands.lean ====
section
/-! DEFINITION. Reading and writing 3-bit lanes as levels and bits: `sext_3`, `zext_3`, `tc_3` of R7, the operand of PUSH
(R76), the emitted elements (R77), and the host's bytes (R50). -/

namespace Sys2Proof.Machine

/-- `sext_3(v)` (R7): the lane as a two's-complement integer. -/
def sext3 (v : Lane) : Int := v.toInt

/-- `zext_3(v)` (R7): the lane as an unsigned integer. -/
def zext3 (v : Lane) : Nat := v.toNat

/-- `tc_3(i)` (R7), "defined only for −2^(N−1) ≤ i ≤ 2^(N−1)−1"; outside, a free value the engine never meets (R119, log 6). -/
def tc3 (i : Int) : Lane := if -4 ≤ i ∧ i ≤ 3 then BitVec.ofInt 3 i else Config.freeLane i

/-- The bit a well-formed element of an ENC call is (R76): the test `b == 1` of the encoders' pseudocode on the stored lane. HOLD
of a 2B1Q pair is read through it too (R22 "stored as 0 or 1"; log 8). -/
def bitOfLane (v : Lane) : Bit := v == 1#3

/-- The malformed-bit test of R76 and R94: `zext_3(din) > 1`. -/
def isMalformedBit (din : Lane) : Bool := decide (1 < zext3 din)

/-- An emitted element on its 3-bit lane (R77). -/
def Element.lane : Element → Lane
  | .level v => tc3 v
  | .bit b => if b then 1#3 else 0#3

/-- The eight bits of a byte, most significant first (R50; the host's conversion, log 14). -/
def bitsOfByte (b : BitVec 8) : List Bit :=
  [b.getLsbD 7, b.getLsbD 6, b.getLsbD 5, b.getLsbD 4, b.getLsbD 3, b.getLsbD 2, b.getLsbD 1, b.getLsbD 0]

/-- Bytes to the bit string of R50: bytes in their order, each most significant bit first. -/
def bitsOfBytes (bs : List (BitVec 8)) : List Bit := bs.flatMap bitsOfByte

/-- `t0*128 + t1*64 + ... + t7` (R50). -/
def byteOfBits (t0 t1 t2 t3 t4 t5 t6 t7 : Bit) : BitVec 8 :=
  BitVec.ofNat 8 (t0.toNat * 128 + t1.toNat * 64 + t2.toNat * 32 + t3.toNat * 16 + t4.toNat * 8 + t5.toNat * 4 +
    t6.toNat * 2 + t7.toNat)

/-- The bytes of a decoded bit string (R50); none when its length is no multiple of 8, which R50 gives no bytes (log 14). -/
def bytesOfBits : List Bit → Option (List (BitVec 8))
  | [] => some []
  | t0 :: t1 :: t2 :: t3 :: t4 :: t5 :: t6 :: t7 :: rest =>
    (bytesOfBits rest).map (byteOfBits t0 t1 t2 t3 t4 t5 t6 t7 :: ·)
  | _ => none

end Sys2Proof.Machine
end

