-- ==== Sys2Proof/Machine/Flags.lean ====
section
/-! DEFINITION. The status lines (R25), the codes of ST and ECODE (R78, R79) and the result word of a step (R71). The engine has no
condition codes (R25). -/

namespace Sys2Proof.Machine

/-- `busy = (ST == RUN)` (R25). -/
def State.busy (s : State) : Bool := s.st == .run

/-- `done = (ST == DONE)` (R25). -/
def State.doneLine (s : State) : Bool := s.st == .done

/-- `err = (ST == ERR)` (R25). -/
def State.errLine (s : State) : Bool := s.st == .err

/-- Status codes (R78). -/
def St.code : St → BitVec 2
  | .idle => 0b00#2
  | .run => 0b01#2
  | .done => 0b10#2
  | .err => 0b11#2

/-- Error codes (R79). -/
def ECode.code : ECode → BitVec 3
  | .eNone => 0#3
  | .eSelect => 1#3
  | .eTransition => 2#3
  | .eSignal => 3#3
  | .eOddlen => 4#3
  | .eBadbit => 5#3

/-- `out_n` (R71): the number of elements emitted by the latest step. -/
def State.outN (s : State) : BitVec 2 := BitVec.ofNat 2 s.out.length

/-- `out0` (R71, R77): no value unless an element was emitted (R220, U8). -/
def State.out0 (s : State) : Option Lane := s.out[0]?.map Element.lane

/-- `out1` (R71, R77): no value unless two elements were emitted (R220, U8). -/
def State.out1 (s : State) : Option Lane := s.out[1]?.map Element.lane

/-- The result word `ov[12:0]` of the latest step (R71), when the lanes that are not valid show `x0` and `x1`: the spec gives
those no value, so a claim about the word holds for all `x0` and `x1` (log 2). -/
def State.resultWord (s : State) (x0 x1 : Lane) : ResultBits :=
  s.outN ++ s.out0.getD x0 ++ s.out1.getD x1 ++ s.st.code ++ s.ecode.code

end Sys2Proof.Machine
end

