-- ==== Sys2Proof/Machine/Decoders.lean ====
section
/-! DEFINITION. The nine decoder unit functions `dec_S(L, u) = Ok(L', out)` or `Err(E_x)` (R9, R140 to R148), over mathematical
integers (R119). `a` is the sample pushed first, `c` the second. Only Manchester, AMI and 2B1Q can fail (R187, C2). -/

namespace Sys2Proof.Machine

/-- R140: +1 is '1', any other level '0'. -/
def decUni (L v : Int) : Except ECode (Int × List Bit) := .ok (L, [v == 1])

/-- R141: −1 is '1', any other level '0'. -/
def decNrzl (L v : Int) : Except ECode (Int × List Bit) := .ok (L, [v == -1])

/-- R142: the carried level is '0'; any other level is '1' and becomes the carried level (assignment: C14, D15). -/
def decNrzi (L v : Int) : Except ECode (Int × List Bit) := if v = L then .ok (L, [false]) else .ok (v, [true])

/-- R143: only the first sample of the pair is examined. -/
def decRz (L a _c : Int) : Except ECode (Int × List Bit) := .ok (L, [a == 1])

/-- R144: (−1, 1) is '1', (1, −1) is '0', any other pair E_TRANSITION. -/
def decMan (L a c : Int) : Except ECode (Int × List Bit) :=
  if a = -1 ∧ c = 1 then .ok (L, [true])
  else if a = 1 ∧ c = -1 then .ok (L, [false])
  else .error .eTransition

/-- R145: a first sample equal to the carried level is '1'; the second sample is carried, whatever it is. -/
def decDman (L a c : Int) : Except ECode (Int × List Bit) := .ok (c, [a == L])

/-- R146: 0 is '0'; the carried polarity is '1' and flips; any other level E_SIGNAL. -/
def decAmi (L v : Int) : Except ECode (Int × List Bit) :=
  if v = 0 then .ok (L, [false])
  else if v = L then .ok (-L, [true])
  else .error .eSignal

/-- R147: 0 is '1', any other level '0'; polarity is not checked and must not be. -/
def decPst (L v : Int) : Except ECode (Int × List Bit) := .ok (L, [v == 0])

/-- R148: the first bit says whether the sign differs from the previous level's, the second whether the magnitude is 3; a level
outside −3, −1, +1, +3 is E_TRANSITION. -/
def dec2B1Q (L v : Int) : Except ECode (Int × List Bit) :=
  if v = -3 ∨ v = -1 ∨ v = 1 ∨ v = 3 then
    .ok (v, [decide (0 < v) != decide (0 < L), v == 3 || v == -3])
  else .error .eTransition

end Sys2Proof.Machine
end

