-- ==== Sys2Proof/Machine/Encoders.lean ====
section
/-! DEFINITION. The nine encoder unit functions `enc_S(L, u) = (L', out)` (R9, R120 to R128), over mathematical integers (R119). -/

namespace Sys2Proof.Machine

/-- R120: '1' to 1, '0' to 0; no state. -/
def encUni (L : Int) (b : Bit) : Int × List Int := (L, [if b then 1 else 0])

/-- R121: '1' to −1, '0' to +1; no state. -/
def encNrzl (L : Int) (b : Bit) : Int × List Int := (L, [if b then -1 else 1])

/-- R122: '1' flips the carried level, '0' repeats it; the (possibly updated) level is emitted. -/
def encNrzi (L : Int) (b : Bit) : Int × List Int :=
  let l := if b then -L else L
  (l, [l])

/-- R123: '1' to [1, 0], '0' to [−1, 0]; no state. -/
def encRz (L : Int) (b : Bit) : Int × List Int := (L, if b then [1, 0] else [-1, 0])

/-- R124: '1' to [−1, 1], '0' to [1, −1]; no state. -/
def encMan (L : Int) (b : Bit) : Int × List Int := (L, if b then [-1, 1] else [1, -1])

/-- R125: '0' flips the carried level before the first sample, '1' does not; it is flipped again for the second. -/
def encDman (L : Int) (b : Bit) : Int × List Int :=
  let l1 := if b then L else -L
  let l2 := -l1
  (l2, [l1, l2])

/-- R126: '1' to the carried polarity, which then flips; '0' to 0. -/
def encAmi (L : Int) (b : Bit) : Int × List Int := if b then (-L, [L]) else (L, [0])

/-- R127: '0' to the carried polarity, which then flips; '1' to 0. -/
def encPst (L : Int) (b : Bit) : Int × List Int := if b then (L, [0]) else (-L, [L])

/-- R128: the first bit keeps (0) or inverts (1) the sign of the carried level, the second gives magnitude 1 (0) or 3 (1); the
emitted level is carried. -/
def enc2B1Q (L : Int) (b0 b1 : Bit) : Int × List Int :=
  let carriedSign : Int := if 0 < L then 1 else -1
  let sgn := if b0 then -carriedSign else carriedSign
  let v := if b1 then 3 * sgn else sgn
  (v, [v])

end Sys2Proof.Machine
end

