-- ==== Sys2Proof/Machine/Mux.lean ====
section
/-! DEFINITION. The scheme-selection mux (R96, R98): which of the eighteen unit functions a (DIR, SCHEME) selects, and the unit
sizes (R54). -/

namespace Sys2Proof.Machine

/-- A codec unit function (R9) by the size of its input unit: it takes the carried level and one or two elements, and gives the
new carried level and the emitted elements, or an error. -/
inductive UnitFn (α β : Type) where
  | one (f : Int → α → Except ECode (Int × List β))
  | two (f : Int → α → α → Except ECode (Int × List β))

/-- The encoders behind the mux (R96, column ENC); "It never fails" (R9). -/
def encoder : Scheme → UnitFn Bit Int
  | .uni => .one fun L b => .ok (encUni L b)
  | .nrzl => .one fun L b => .ok (encNrzl L b)
  | .nrzi => .one fun L b => .ok (encNrzi L b)
  | .rz => .one fun L b => .ok (encRz L b)
  | .man => .one fun L b => .ok (encMan L b)
  | .dman => .one fun L b => .ok (encDman L b)
  | .ami => .one fun L b => .ok (encAmi L b)
  | .pst => .one fun L b => .ok (encPst L b)
  | .twoB1Q => .two fun L b0 b1 => .ok (enc2B1Q L b0 b1)

/-- The decoders behind the mux (R96, column DEC). -/
def decoder : Scheme → UnitFn Int Bit
  | .uni => .one decUni
  | .nrzl => .one decNrzl
  | .nrzi => .one decNrzi
  | .rz => .two decRz
  | .man => .two decMan
  | .dman => .two decDman
  | .ami => .one decAmi
  | .pst => .one decPst
  | .twoB1Q => .one dec2B1Q

/-- `UIN(DIR, SCHEME)` (R54): input elements per unit. -/
def unitIn : Dir → Scheme → Nat
  | .enc, .twoB1Q => 2
  | .dec, .rz => 2
  | .dec, .man => 2
  | .dec, .dman => 2
  | _, _ => 1

/-- `UOUT(DIR, SCHEME)` (R54): output elements per unit. -/
def unitOut : Dir → Scheme → Nat
  | .enc, .rz => 2
  | .enc, .man => 2
  | .enc, .dman => 2
  | .dec, .twoB1Q => 2
  | _, _ => 1

end Sys2Proof.Machine
end

