-- ==== Sys2Proof/Machine/Ops.lean ====
section
/-! DEFINITION. The operations the commands share: what each writes to the registers, and `raise`, the engine's one error entry
(R190). There is no return from an error beside it: only START or RST leaves ERR (R193). -/

namespace Sys2Proof.Machine

/-- How a command ends. -/
abbrev Result := Host.Outcome State Fault Refusal

/-! ### Register updates. Each says what one step writes; `out` is the step's emission (R101). -/

/-- A step that writes no register and emits nothing (R92, R99). -/
def State.quiet (s : State) : State := { s with out := [] }

/-- `raise E_x` (R8, R190): ST <- ERR, ECODE <- E_x, nothing emitted, no other register written, nothing saved. -/
def State.raised (e : ECode) (s : State) : State := { s with st := .err, ecode := e, out := [] }

/-- What START writes whatever the scheme code is (R93): HOLD is not written. -/
def State.initialised (d : Dir) (code : SchemeCode) (s : State) : State :=
  { s with dir := d, scheme := code, level := tc3 Config.initialLevel, phase := false }

/-- The end of a START with a legal code (R93). -/
def State.started (d : Dir) (code : SchemeCode) (s : State) : State :=
  { s.initialised d code with st := .run, ecode := .eNone, out := [] }

/-- `HOLD <- e; PHASE <- 1`, nothing emitted (R95). -/
def State.held (din : Lane) (s : State) : State := { s with hold := din, phase := true, out := [] }

/-- `LEVEL <- L'; PHASE <- 0`, the unit's output emitted (R96). -/
def State.completed (L' : Int) (out : List Element) (s : State) : State :=
  { s with level := tc3 L', phase := false, out := out }

/-- `ST <- DONE` (R97, PHASE = 0). -/
def State.ended (s : State) : State := { s with st := .done, out := [] }

/-- `PHASE <- 0; ST <- DONE` (R97, TRUNCATE: the held bit is dropped). -/
def State.dropped (s : State) : State := { s with phase := false, st := .done, out := [] }

/-- The RST step (R33, R211): every register gets its reset value but HOLD, which is unspecified: a free value (log 5). The
model's own fields stay, but for the counter of free values. -/
def State.pinReset (s : State) : State :=
  { s with
    level := 1#3
    hold := Config.freeHold s.freeIndex
    phase := false
    dir := .enc
    scheme := 0#4
    st := .idle
    ecode := .eNone
    out := []
    freeIndex := s.freeIndex + 1 }

/-! ### Shared operations -/

/-- Error entry (R190): the engine's only exception, and it is precise: a next state, never a stop. -/
def raiseError (e : ECode) (s : State) : Result := .next (s.raised e)

/-- An inapplicable command is ignored (R99). -/
def ignoreCommand (s : State) : Result := .next s.quiet

/-- `START(dir, scheme)` (R93) for any 4-bit code: it begins a call in any state (R100), or raises E_SELECT (R181). -/
def startCall (d : Dir) (code : SchemeCode) (s : State) : Result :=
  match schemeOfCode code with
  | some _ => .next (s.started d code)
  | none => raiseError .eSelect (s.initialised d code)

/-- The end of `complete(u)` (R96): write the carried level and emit in order, or raise. -/
def finishUnit {β : Type} (wrap : β → Element) (r : Except ECode (Int × List β)) (s : State) : Result :=
  match r with
  | .ok (L', out) => .next (s.completed L' (out.map wrap))
  | .error e => raiseError e s

/-- `accept(e)` (R94): a codec of unit size 1 completes at once; one of unit size 2 fills HOLD first (R95) and completes with
`[HOLD, e]` next (R96). `read` reads a lane as an input element, `wrap` marks an output element. -/
def acceptElement {α β : Type} (u : UnitFn α β) (read : Lane → α) (wrap : β → Element) (din : Lane) (s : State) : Result :=
  match u with
  | .one f => finishUnit wrap (f (sext3 s.level) (read din)) s
  | .two f =>
    if s.phase then finishUnit wrap (f (sext3 s.level) (read s.hold) (read din)) s
    else .next (s.held din)

/-- The element of an ENC call (R94): the malformed-bit check, made before anything is stored, then the encoder the latched
SCHEME selects. -/
def acceptBit (din : Lane) (s : State) : Result :=
  if isMalformedBit din then raiseError .eBadbit s
  else
    match schemeOfCode s.scheme with
    | some S => acceptElement (encoder S) bitOfLane .level din s
    | none => .fault .noCodecSelected

/-- The element of a DEC call (R94): any level, given to the decoder the latched SCHEME selects. -/
def acceptSample (din : Lane) (s : State) : Result :=
  match schemeOfCode s.scheme with
  | some S => acceptElement (decoder S) sext3 .bit din s
  | none => .fault .noCodecSelected

/-- END of a call with a dangling first element (R97): E_ODDLEN in a DEC call; in an ENC call what P_ODD_2B1Q says. -/
def endDangling (s : State) : Result :=
  match s.dir, s.policy with
  | .dec, _ => raiseError .eOddlen s
  | .enc, .reject => raiseError .eOddlen s
  | .enc, .truncate => .next s.dropped

end Sys2Proof.Machine
end

