-- ==== Sys2Proof/Machine/Control.lean ====
section
/-! DEFINITION. The commands that are no part of a call's data: NOP (R92) and the RST step (R211). -/

namespace Sys2Proof.Machine

/-- NOP (R92): "Writes no register, emits nothing, raises nothing, in every state". -/
def execNop (s : State) : Result := .next s.quiet

/-- The step in which pin `rst` is 1, "whatever `pv` holds" (R211). -/
def execRst (s : State) : Result := .next s.pinReset

end Sys2Proof.Machine
end

