-- ==== Sys2Proof/Machine/Start.lean ====
section
/-! DEFINITION. The START family (R93): the eighteen rows of the opcode map, each selecting one codec (R80), and the illegal START
words (R81). Every later PUSH of the call runs the codec rule named. -/

namespace Sys2Proof.Machine

/-- START.ENC.UNI (R93): begin an encode call under Unipolar, code 1; its units are R120. -/
def execStartEncUni (s : State) : Result := startCall .enc 1#4 s

/-- START.ENC.NRZL (R93): begin an encode call under NRZ-L, code 2; its units are R121. -/
def execStartEncNrzl (s : State) : Result := startCall .enc 2#4 s

/-- START.ENC.NRZI (R93): begin an encode call under NRZ-I, code 3; its units are R122. -/
def execStartEncNrzi (s : State) : Result := startCall .enc 3#4 s

/-- START.ENC.RZ (R93): begin an encode call under RZ, code 4; its units are R123. -/
def execStartEncRz (s : State) : Result := startCall .enc 4#4 s

/-- START.ENC.MAN (R93): begin an encode call under Manchester, code 5; its units are R124. -/
def execStartEncMan (s : State) : Result := startCall .enc 5#4 s

/-- START.ENC.DMAN (R93): begin an encode call under Differential Manchester, code 6; its units are R125. -/
def execStartEncDman (s : State) : Result := startCall .enc 6#4 s

/-- START.ENC.AMI (R93): begin an encode call under AMI, code 7; its units are R126. -/
def execStartEncAmi (s : State) : Result := startCall .enc 7#4 s

/-- START.ENC.PST (R93): begin an encode call under Pseudoternary, code 8; its units are R127. -/
def execStartEncPst (s : State) : Result := startCall .enc 8#4 s

/-- START.ENC.2B1Q (R93): begin an encode call under 2B1Q, code 9; its units are R128. -/
def execStartEnc2B1Q (s : State) : Result := startCall .enc 9#4 s

/-- START.DEC.UNI (R93): begin a decode call under Unipolar, code 1; its units are R140. -/
def execStartDecUni (s : State) : Result := startCall .dec 1#4 s

/-- START.DEC.NRZL (R93): begin a decode call under NRZ-L, code 2; its units are R141. -/
def execStartDecNrzl (s : State) : Result := startCall .dec 2#4 s

/-- START.DEC.NRZI (R93): begin a decode call under NRZ-I, code 3; its units are R142. -/
def execStartDecNrzi (s : State) : Result := startCall .dec 3#4 s

/-- START.DEC.RZ (R93): begin a decode call under RZ, code 4; its units are R143. -/
def execStartDecRz (s : State) : Result := startCall .dec 4#4 s

/-- START.DEC.MAN (R93): begin a decode call under Manchester, code 5; its units are R144. -/
def execStartDecMan (s : State) : Result := startCall .dec 5#4 s

/-- START.DEC.DMAN (R93): begin a decode call under Differential Manchester, code 6; its units are R145. -/
def execStartDecDman (s : State) : Result := startCall .dec 6#4 s

/-- START.DEC.AMI (R93): begin a decode call under AMI, code 7; its units are R146. -/
def execStartDecAmi (s : State) : Result := startCall .dec 7#4 s

/-- START.DEC.PST (R93): begin a decode call under Pseudoternary, code 8; its units are R147. -/
def execStartDecPst (s : State) : Result := startCall .dec 8#4 s

/-- START.DEC.2B1Q (R93): begin a decode call under 2B1Q, code 9; its units are R148. -/
def execStartDec2B1Q (s : State) : Result := startCall .dec 9#4 s

/-- A START word with scheme 0 or 10..15 (R81, R93, R181): everything START writes is written, then E_SELECT is raised. -/
def execIllegalStart (d : Dir) (code : SchemeCode) (s : State) : Result := startCall d code s

end Sys2Proof.Machine
end

