-- ==== Sys2Proof/Machine/Stream.lean ====
section
/-! DEFINITION. The stream family: PUSH (R94 to R96) and END (R97), the commands a call is made of after its START. -/

namespace Sys2Proof.Machine

/-- PUSH (R94): the next input element of the running call, read by the latched DIR (R76); ignored outside RUN, where `din` is
not examined (R99). -/
def execPush (din : Lane) (s : State) : Result :=
  if s.st = .run then
    match s.dir with
    | .enc => acceptBit din s
    | .dec => acceptSample din s
  else ignoreCommand s

/-- END (R97): the input of the running call is complete; ignored outside RUN (R99). -/
def execEndCall (s : State) : Result :=
  if s.st = .run then
    if s.phase then endDangling s else .next s.ended
  else ignoreCommand s

end Sys2Proof.Machine
end

