-- ==== Sys2Proof/Machine/Dispatch.lean ====
section
/-! DEFINITION. What each instruction does: one arm per row of the opcode map (R80). -/

namespace Sys2Proof.Machine

def exec (i : Instr) (s : State) : Host.Outcome State Fault Refusal :=
  match i with
  | .nop => Sys2Proof.Machine.execNop s
  | .startEncUni => Sys2Proof.Machine.execStartEncUni s
  | .startEncNrzl => Sys2Proof.Machine.execStartEncNrzl s
  | .startEncNrzi => Sys2Proof.Machine.execStartEncNrzi s
  | .startEncRz => Sys2Proof.Machine.execStartEncRz s
  | .startEncMan => Sys2Proof.Machine.execStartEncMan s
  | .startEncDman => Sys2Proof.Machine.execStartEncDman s
  | .startEncAmi => Sys2Proof.Machine.execStartEncAmi s
  | .startEncPst => Sys2Proof.Machine.execStartEncPst s
  | .startEnc2B1Q => Sys2Proof.Machine.execStartEnc2B1Q s
  | .startDecUni => Sys2Proof.Machine.execStartDecUni s
  | .startDecNrzl => Sys2Proof.Machine.execStartDecNrzl s
  | .startDecNrzi => Sys2Proof.Machine.execStartDecNrzi s
  | .startDecRz => Sys2Proof.Machine.execStartDecRz s
  | .startDecMan => Sys2Proof.Machine.execStartDecMan s
  | .startDecDman => Sys2Proof.Machine.execStartDecDman s
  | .startDecAmi => Sys2Proof.Machine.execStartDecAmi s
  | .startDecPst => Sys2Proof.Machine.execStartDecPst s
  | .startDec2B1Q => Sys2Proof.Machine.execStartDec2B1Q s
  | .push din => Sys2Proof.Machine.execPush din s
  | .endCall => Sys2Proof.Machine.execEndCall s

end Sys2Proof.Machine
end

