-- ==== Sys2Proof/Machine/Cycle.lean ====
section
/-! DEFINITION. One step of the engine on what the host presents (R90, R211), and taking it from the input stream (R52, R59). -/

namespace Sys2Proof.Machine

/-- The step for one presented `rst` and `pv` (R90): `rst` overrides the command word (R211); a word that selects a row runs it; an
illegal START word raises E_SELECT (R81). -/
def cycle (p : PortInput) (s : State) : Result :=
  if p.rst then execRst s
  else
    match Sys2Proof.decode p.pv with
    | .instr i => exec i s
    | .illegalSelection d code => execIllegalStart d code s

/-- The next presented input, taken from the input stream: "an element is consumed once and cannot be re-read" (R52). -/
def fetch (s : State) : Option (PortInput × State) :=
  match s.pending with
  | [] => none
  | p :: rest => some (p, { s with pending := rest })

/-- A command word with `rst` low. -/
def PortInput.word (w : CommandWord) : PortInput := { rst := false, pv := w }

/-- A step with `rst` high. -/
def PortInput.reset : PortInput := { rst := true, pv := 0#10 }

/-- The host presents `ps` in the coming steps, before what was to come. -/
def State.present (ps : List PortInput) (s : State) : State := { s with pending := ps ++ s.pending }

end Sys2Proof.Machine
end

