-- ==== Sys2Proof/Machine/Step.lean ====
section
/-! DEFINITION. One step of the machine: the engine takes one command word, or one RST (R222). -/

namespace Sys2Proof.Machine

/-- The step: what the host presents next is taken whole (R58). With nothing presented there is no step (R26; log 1). -/
def step (s : State) : Host.Outcome State Fault Refusal :=
  match fetch s with
  | none => .refused .noCommandPresented
  | some (p, s') => cycle p s'

/-- `s` with the command word `w` presented next, `rst` low: the load of a program is the host's presenting of words (log 1). -/
def State.withFetchWord (s : State) (_nbits w : Nat) : State := s.present [.word (BitVec.ofNat 10 w)]

end Sys2Proof.Machine
end

