-- ==== Sys2Proof/Machine/Call.lean ====
section
/-! DEFINITION. The call-level functions `encode` and `decode` (R160, R161), folds of the same unit functions as the command
level uses (R9), and what the units completed before an error have emitted (R162, R172). -/

namespace Sys2Proof.Machine

/-- The loop of R160 and R161 for a codec of unit size 1: leftmost unit first, a failing unit ends it. -/
def foldOne {α β : Type} (f : Int → α → Except ECode (Int × List β)) : Int → List α → Except ECode (List β)
  | _, [] => .ok []
  | L, x :: xs =>
    match f L x with
    | .error e => .error e
    | .ok (L', o) => (foldOne f L' xs).map (o ++ ·)

/-- The loop of R160 and R161 for a codec of unit size 2; `dangling` is what a lone last element raises, if anything. -/
def foldTwo {α β : Type} (f : Int → α → α → Except ECode (Int × List β)) (dangling : Option ECode) :
    Int → List α → Except ECode (List β)
  | _, [] => .ok []
  | _, [_] =>
    match dangling with
    | some e => .error e
    | none => .ok []
  | L, x :: y :: xs =>
    match f L x y with
    | .error e => .error e
    | .ok (L', o) => (foldTwo f dangling L' xs).map (o ++ ·)

/-- A whole input through a codec, from the carried level `L`. -/
def UnitFn.fold {α β : Type} (u : UnitFn α β) (dangling : Option ECode) (L : Int) (xs : List α) : Except ECode (List β) :=
  match u with
  | .one f => foldOne f L xs
  | .two f => foldTwo f dangling L xs

/-- What the complete units of the input emit, up to the first that fails: unit size 1. -/
def emittedOne {α β : Type} (f : Int → α → Except ECode (Int × List β)) : Int → List α → List β
  | _, [] => []
  | L, x :: xs =>
    match f L x with
    | .error _ => []
    | .ok (L', o) => o ++ emittedOne f L' xs

/-- What the complete units of the input emit, up to the first that fails: unit size 2. -/
def emittedTwo {α β : Type} (f : Int → α → α → Except ECode (Int × List β)) : Int → List α → List β
  | L, x :: y :: xs =>
    match f L x y with
    | .error _ => []
    | .ok (L', o) => o ++ emittedTwo f L' xs
  | _, _ => []

/-- What the complete units of the input emit, up to the first that fails (R162 (b), R172). -/
def UnitFn.emitted {α β : Type} (u : UnitFn α β) (L : Int) (xs : List α) : List β :=
  match u with
  | .one f => emittedOne f L xs
  | .two f => emittedTwo f L xs

/-- What the dangling first bit of a 2B1Q pair raises (R160). -/
def danglingError : OddPolicy → Option ECode
  | .truncate => none
  | .reject => some .eOddlen

/-- `encode(S, bits)` (R160) under a policy. -/
def encodeCall (p : OddPolicy) (S : Scheme) (bits : List Bit) : Except ECode (List Int) :=
  (encoder S).fold (danglingError p) Config.initialLevel bits

/-- `decode(S, sig)` (R161); a dangling sample is E_ODDLEN. Over all integers: what a port cannot carry (R161, U10) is given the
same rules (log 17). -/
def decodeCall (S : Scheme) (sig : List Int) : Except ECode (List Bit) :=
  (decoder S).fold (some .eOddlen) Config.initialLevel sig

/-- The samples an encode call emits, whether or not it fails in the end (R162). -/
def encodeEmitted (S : Scheme) (bits : List Bit) : List Int := (encoder S).emitted Config.initialLevel bits

/-- The bits a decode call emits before it fails or ends (R162, R172). -/
def decodeEmitted (S : Scheme) (sig : List Int) : List Bit := (decoder S).emitted Config.initialLevel sig

end Sys2Proof.Machine
end

