-- ==== Sys2Proof/Machine/Run.lean ====
section
/-! DEFINITION. Runs: the left fold of the step over what the host presents (R59, R90), the commands of an input stream, and the
result of a call (R102, R192). -/

namespace Sys2Proof.Machine

/-- A run under `ps` (R90): "the left fold of `step`; its output is the concatenation of the `Out`s". -/
def runInputs : List PortInput → State → Host.Outcome (State × List Element) Fault Refusal
  | [], s => .next (s, [])
  | p :: ps, s =>
    match cycle p s with
    | .fault r => .fault r
    | .refused r => .refused r
    | .next t =>
      match runInputs ps t with
      | .fault r => .fault r
      | .refused r => .refused r
      | .next (u, o) => .next (u, t.out ++ o)

/-- The command a presented input is: none for an RST step. -/
def PortInput.command (p : PortInput) : Option Decoded := if p.rst then none else some (Sys2Proof.decode p.pv)

/-- The commands of an input stream with its NOPs left out (R92: the number of NOPs has no effect). -/
def commandsOf (ps : List PortInput) : List (Option Decoded) :=
  (ps.map PortInput.command).filter (fun c => c != some (.instr .nop))

/-- The commands of one call (R6): START, one PUSH per input element, END. -/
def callCommands (d : Dir) (S : Scheme) (xs : List Lane) : List (Option Decoded) :=
  ([startInstr d S] ++ xs.map Instr.push ++ [Instr.endCall]).map (fun i => some (.instr i))

/-- One call with its ignored fields zero, as R83 assembles ENCODE and DECODE. -/
def callInputs (d : Dir) (S : Scheme) (xs : List Lane) : List PortInput :=
  ([startWord d S.code] ++ xs.map pushWord ++ [endWord]).map PortInput.word

/-- An input that is a START, whatever its scheme field holds (R74). -/
def PortInput.isStart (p : PortInput) : Bool := !p.rst && cmdField p.pv == 1#2

/-- An input that ends a running call from outside: RST or any START (R102 (c)). -/
def PortInput.abandons (p : PortInput) : Bool := p.rst || cmdField p.pv == 1#2

/-- What a host may conclude of a call (R102, R192). -/
inductive CallResult where
  /-- The call is still in RUN: it has no result (R218). -/
  | running
  /-- An END set DONE: the result is everything emitted since START. -/
  | succeeded (out : List Element)
  /-- A step raised, be it the call's own START (E_SELECT): the call has no result, what it emitted is void. -/
  | failed (e : ECode)
  /-- A START or RST came first: the call has no result. -/
  | abandoned
  /-- The model stopped (no run from reset does). -/
  | stopped
  deriving DecidableEq, Repr

/-- How a call that has reached `s` has ended, of which `acc` has been emitted; none while it runs (R102). -/
def State.callEnd (acc : List Element) (s : State) : Option CallResult :=
  match s.st with
  | .run => none
  | .done => some (.succeeded acc)
  | .err => some (.failed s.ecode)
  | .idle => some .abandoned

/-- The result of the call that has reached `s` (R102), of which `acc` has been emitted, when `ps` follow: it ends at the first step
that leaves ST ≠ RUN, its START among them, or before the first input that is a START or RST. -/
def followCall : List PortInput → State → List Element → CallResult
  | [], s, acc => (s.callEnd acc).getD .running
  | p :: ps, s, acc =>
    match s.callEnd acc with
    | some r => r
    | none =>
      if p.abandons then .abandoned
      else
        match cycle p s with
        | .next t => followCall ps t (acc ++ t.out)
        | _ => .stopped

/-- The result of the first call that `ps` begins (R102), from its START on; none where no input is a START. A START that raises
E_SELECT "is a call that failed before consuming anything". -/
def callResult : List PortInput → State → Option CallResult
  | [], _ => none
  | p :: ps, s =>
    match cycle p s with
    | .next t => if p.isStart then some (followCall ps t t.out) else callResult ps t
    | _ => some .stopped

end Sys2Proof.Machine
end

