-- ==== Sys2Proof/Safety.lean ====
section
/-! DEFINITION. What claims are stated in: a running call, the value sets of R21 and R165, the errors of R187, and the invariant of the
states a run reaches. -/

namespace Sys2Proof.Machine

/-- A call of direction `d` under scheme `S` is running (R24, R27). -/
structure InCall (d : Dir) (S : Scheme) (s : State) : Prop where
  running : s.st = .run
  direction : s.dir = d
  selection : s.scheme = S.code

/-- The alphabet of R165. -/
def alphabet : Scheme → List Int
  | .uni => [0, 1]
  | .nrzl => [-1, 1]
  | .nrzi => [-1, 1]
  | .rz => [-1, 0, 1]
  | .man => [-1, 1]
  | .dman => [-1, 1]
  | .ami => [-1, 0, 1]
  | .pst => [-1, 0, 1]
  | .twoB1Q => [-3, -1, 1, 3]

/-- The values LEVEL takes under a direction and a scheme (R21). -/
def carries (d : Dir) (S : Scheme) (L : Int) : Prop :=
  match d, S with
  | .enc, .nrzi => L = -1 ∨ L = 1
  | .enc, .dman => L = -1 ∨ L = 1
  | .enc, .ami => L = -1 ∨ L = 1
  | .enc, .pst => L = -1 ∨ L = 1
  | .enc, .twoB1Q => L = -3 ∨ L = -1 ∨ L = 1 ∨ L = 3
  | .dec, .nrzi => -4 ≤ L ∧ L ≤ 3
  | .dec, .dman => -4 ≤ L ∧ L ≤ 3
  | .dec, .ami => L = -1 ∨ L = 1
  | .dec, .twoB1Q => L = -3 ∨ L = -1 ∨ L = 1 ∨ L = 3
  | _, _ => L = 1

/-- The errors a call can raise after its START (R187). -/
def callErrors (p : OddPolicy) : Dir → Scheme → List ECode
  | .enc, .twoB1Q => if p = .reject then [.eOddlen, .eBadbit] else [.eBadbit]
  | .enc, _ => [.eBadbit]
  | .dec, .rz => [.eOddlen]
  | .dec, .dman => [.eOddlen]
  | .dec, .man => [.eTransition, .eOddlen]
  | .dec, .ami => [.eSignal]
  | .dec, .twoB1Q => [.eTransition]
  | .dec, _ => []

/-- An element a call under `d` and `S` may emit (R53, R165): a level of the alphabet, or a bit. -/
def mayEmit (d : Dir) (S : Scheme) : Element → Prop
  | .level v => d = .enc ∧ v ∈ alphabet S
  | .bit _ => d = .dec

/-- What SCHEME, DIR, LEVEL, PHASE, HOLD, ECODE and the emission may be while SCHEME selects `S`. -/
structure State.LegalUnder (S : Scheme) (s : State) : Prop where
  /-- A selected scheme has been latched by a START (R24, R33). -/
  started : s.st ≠ .idle
  /-- R21. -/
  level : carries s.dir S (sext3 s.level)
  /-- R23, R97: PHASE = 1 only in the four call types of unit size 2, and never after DONE. -/
  pairs : s.phase = true → unitIn s.dir S = 2 ∧ s.st ≠ .done
  /-- R22: the first bit of a pair is "stored as 0 or 1". -/
  heldBit : s.phase = true → s.dir = .enc → s.hold = 0#3 ∨ s.hold = 1#3
  /-- R187: the error of a failed call is one its kind of call can raise. -/
  error : s.st = .err → s.ecode ∈ callErrors s.policy s.dir S
  /-- R54, R101: a step emits nothing, or one unit's elements, and only in RUN. -/
  emission : s.out ≠ [] → s.st = .run ∧ s.out.length = unitOut s.dir S ∧ ∀ x ∈ s.out, mayEmit s.dir S x

/-- What the registers may be while SCHEME selects none: never started since reset, or a failed selection (R33, R181). -/
structure State.LegalUnselected (s : State) : Prop where
  /-- R33: +1 after reset and after START. -/
  level : s.level = 1#3
  phase : s.phase = false
  out : s.out = []
  phaseOfCall : (s.st = .idle ∧ s.dir = .enc ∧ s.scheme = 0#4) ∨ (s.st = .err ∧ s.ecode = .eSelect)

/-- The invariant of every state a run reaches. -/
structure State.Inv (s : State) : Prop where
  /-- R27: ECODE "Reads as 0 whenever ST ≠ ERR". -/
  noError : s.st ≠ .err → s.ecode = .eNone
  selected : ∀ S, schemeOfCode s.scheme = some S → s.LegalUnder S
  unselected : schemeOfCode s.scheme = none → s.LegalUnselected

/-- Two states that agree in everything a host can see of a step and every later step can depend on, HOLD being read only while PHASE
is set (R34). -/
def SameBehaviour (s t : State) : Prop :=
  t = { s with hold := t.hold, freeIndex := t.freeIndex, pending := t.pending } ∧ (s.phase = true → t.hold = s.hold)

end Sys2Proof.Machine
end

