-- ==== Sys2Proof/Certificates/Slice0/Obligations.lean ====
section
/-! DEFINITION. The statements for the provers, taken from the numbered rules of the spec. -/

open Sys2Proof Sys2Proof.Machine

/-- An assembled command word is cmd, dir, scheme, din from the top; the spec's ten example words (R84). -/
def Obligations.AssembledWordsHaveTheSpecsLayout : Prop :=
  (∀ (cmd : BitVec 2) (d : Dir) (code : SchemeCode) (din : Lane),
    (assembleWord cmd d code din).toNat = cmd.toNat * 256 + d.code.toNat * 128 + code.toNat * 8 + din.toNat) ∧
  (∀ n : Int, -4 ≤ n → n ≤ 3 → (Asm.push n).words = some [assembleWord 0b10#2 .enc 0#4 (tc3 n)]) ∧
  (Asm.start .enc .man).words = some [0x128#10] ∧ (Asm.start .dec .twoB1Q).words = some [0x1C8#10] ∧
  (Asm.push 1).words = some [0x201#10] ∧ (Asm.push (-1)).words = some [0x207#10] ∧
  (Asm.push (-3)).words = some [0x205#10] ∧ (Asm.push 3).words = some [0x203#10] ∧
  (Asm.push 0).words = some [0x200#10] ∧ (Asm.push 2).words = some [0x202#10] ∧
  Asm.endCall.words = some [0x300#10] ∧ Asm.nop.words = some [0x000#10]

/-- Words written out bit by bit from the opcode map decode to their instructions (derived: 30_encoding.md section 4 (the
opcode map); opcode_table.json). -/
def Obligations.SpecWordsDecodeToTheirInstructions : Prop :=
  decode 0b0010101101#10 = .instr .nop ∧ decode 0b0100101000#10 = .instr .startEncMan ∧
  decode 0b0101001111#10 = .instr .startEnc2B1Q ∧ decode 0b0110001010#10 = .instr .startDecUni ∧
  decode 0b0110111000#10 = .instr .startDecAmi ∧ decode 0b1000000001#10 = .instr (.push 0b001#3) ∧
  decode 0b1011111111#10 = .instr (.push 0b111#3) ∧ decode 0b1110000011#10 = .instr .endCall ∧
  decode 0b0111100000#10 = .illegalSelection .dec 12#4

/-- Decode of encode is the instruction, and a word decodes to an instruction only if it is its encoding up to ignored
fields (derived: 30_encoding.md sections 1, 3, 4 and 7). -/
def Obligations.DecodeAndEncodeAgree : Prop :=
  (∀ i : Instr, i.wellFormed = true → decode (encode i) = .instr i) ∧
  (∀ (w : CommandWord) (i : Instr), decode w = .instr i →
    i.row ∈ opcodeTable ∧ i.row.selects w = true ∧
    encode i = w &&& (i.row.mask ||| (match i with | .push _ => 0x007#10 | _ => 0x000#10)))

/-- The 21 rows are disjoint and with the illegal START words cover all 1024 words (derived: 30_encoding.md sections 4 and
5 (opcode map, illegal encodings)). -/
def Obligations.OpcodeRowsAndIllegalStartsPartitionTheWords : Prop :=
  opcodeTable.length = 21 ∧
  ∀ w : CommandWord,
    (opcodeTable.filter (fun r => r.selects w)).length = (if isIllegalStart w then 0 else 1) ∧
    (isIllegalStart w = true ↔ ∃ d c, decode w = .illegalSelection d c)

/-- DIR and SCHEME change only at a START (or RST), and the dir and scheme fields of PUSH, END and NOP words have no
effect (R28). -/
def Obligations.SelectionIsSampledByStartOnly : Prop :=
  (∀ (p : PortInput) (s t : State), cycle p s = .next t → p.rst = false → cmdField p.pv ≠ 1#2 →
    t.dir = s.dir ∧ t.scheme = s.scheme) ∧
  (∀ (w w' : CommandWord) (s : State), cmdField w = cmdField w' → cmdField w ≠ 1#2 → dinField w = dinField w' →
    cycle (.word w) s = cycle (.word w') s)

/-- Two words that agree in the fields their command uses give the same step (derived: 30_encoding.md section 1 (formats
S, P, Z); 70_reset_and_hazards.md section 3 (selector and data ports outside their commands)). -/
def Obligations.IgnoredFieldsHaveNoEffect : Prop :=
  ∀ (w w' : CommandWord) (s : State), cmdField w = cmdField w' →
    (cmdField w = 1#2 → dirField w = dirField w' ∧ schemeField w = schemeField w') →
    (cmdField w = 2#2 → dinField w = dinField w') →
    cycle (.word w) s = cycle (.word w') s

/-- An RST step resets every register but HOLD whatever pv holds, and a later START cannot tell that it happened (R211). -/
def Obligations.PinResetStep : Prop :=
  ∀ (s : State) (pv : CommandWord), ∃ (h : Lane) (n : Nat),
    step (s.present [{ rst := true, pv := pv }]) = .next
      { s with
        level := 1#3, hold := h, phase := false, dir := .enc, scheme := 0#4, st := .idle, ecode := .eNone,
        out := [], freeIndex := n } ∧
    ∀ t, step (s.present [{ rst := true, pv := pv }]) = .next t → ∀ (d : Dir) (S : Scheme),
      exec (startInstr d S) t = .next { t with st := .run, dir := d, scheme := S.code } ∧
      ∃ u, exec (startInstr d S) s = .next u ∧
        { t with st := .run, dir := d, scheme := S.code } = { u with hold := h, freeIndex := n }

/-- The reset state has the spec's reset values and meets the invariant (derived: 10_state.md section 7 (table of reset
values, column after pin reset); 00_scope.md section 4 (P_ODD_2B1Q default)). -/
def Obligations.ResetStateHasTheSpecsValuesAndIsLegal : Prop :=
  State.reset.Inv ∧ sext3 State.reset.level = 1 ∧ State.reset.phase = false ∧ State.reset.dir = .enc ∧
  State.reset.scheme = 0#4 ∧ State.reset.st = .idle ∧ State.reset.ecode = .eNone ∧ State.reset.out = [] ∧
  State.reset.policy = .truncate

/-- Every step keeps the invariant of the reached states (derived: 10_state.md sections 2, 3, 4 and 7; 20_memory.md
section 2 (unit sizes); 43_call_level_and_laws.md section 2 (alphabet containment); 60_exceptions.md section 1 (which
call can raise which error)). -/
def Obligations.EveryStepKeepsTheInvariant : Prop :=
  ∀ s t : State, s.Inv → step s = .next t → t.Inv

/-- In every state of the invariant the engine answers every presented input with a next state (derived:
40_commands_and_mux.md section 1 (the step function is total); 70_reset_and_hazards.md section 3 (the host, in one
table)). -/
def Obligations.EveryPresentedInputIsTaken : Prop :=
  ∀ (s : State) (p : PortInput) (ps : List PortInput), s.Inv → s.pending = p :: ps →
    ∃ t, step s = .next t ∧ t.pending = ps ∧ t.policy = s.policy

/-- A step takes the next presented input and runs the instruction its word decodes to (derived: 40_commands_and_mux.md
section 1; 70_reset_and_hazards.md sections 1 and 4). Two clauses are the model's, by log 1 (DESIGN CHOICE): that
withFetchWord presents a word next, and that step answers the refusal noCommandPresented when nothing is presented; no
rule of the spec says them. -/
def Obligations.StepRunsTheDecodedInstruction : Prop :=
  (∀ (s : State) (w : CommandWord) (ps : List PortInput) (i : Instr), s.pending = { rst := false, pv := w } :: ps →
    decode w = .instr i → i.wellFormed = true → step s = exec i { s with pending := ps }) ∧
  (∀ (s : State) (nbits w : Nat) (i : Instr), decode (BitVec.ofNat 10 w) = .instr i →
    step (s.withFetchWord nbits w) = exec i s) ∧
  (∀ s : State, s.pending = [] → step s = .refused .noCommandPresented)

/-- Running the machine on a presented stream is the left fold of the engine's step over it (derived:
40_commands_and_mux.md section 1; 20_memory.md section 5 (ordering model)). -/
def Obligations.StepsFoldTheInputs : Prop :=
  ∀ (ps : List PortInput) (s : State),
    Host.Core.run Sys2Proof.core ps.length (s.present ps) =
      (match runInputs ps s with
        | .next (u, _) => .next u
        | .fault r => .fault r
        | .refused r => .refused r)

/-- NOP writes no register and emits nothing, and the number of NOPs between commands changes no result (R92). -/
def Obligations.NopHasNoEffect : Prop :=
  (∀ s : State, exec .nop s = .next { s with out := [] }) ∧
  (∀ (ps qs : List PortInput) (s u : State) (o : List Element), commandsOf ps = commandsOf qs →
    runInputs ps s = .next (u, o) →
    ∃ u' : State, runInputs qs s = .next (u', o) ∧ u' = { u with out := u'.out })

/-- Each START.ENC row begins a call under its scheme in every state, and writes nothing else (derived:
40_commands_and_mux.md section 3; 30_encoding.md section 2 (scheme codes)). -/
def Obligations.StartEncodeInstructions : Prop :=
  ∀ s : State,
    exec .startEncUni s = .next { s with
      dir := .enc, scheme := 1#4, level := 1#3, phase := false, st := .run, ecode := .eNone, out := [] } ∧
    exec .startEncNrzl s = .next { s with
      dir := .enc, scheme := 2#4, level := 1#3, phase := false, st := .run, ecode := .eNone, out := [] } ∧
    exec .startEncNrzi s = .next { s with
      dir := .enc, scheme := 3#4, level := 1#3, phase := false, st := .run, ecode := .eNone, out := [] } ∧
    exec .startEncRz s = .next { s with
      dir := .enc, scheme := 4#4, level := 1#3, phase := false, st := .run, ecode := .eNone, out := [] } ∧
    exec .startEncMan s = .next { s with
      dir := .enc, scheme := 5#4, level := 1#3, phase := false, st := .run, ecode := .eNone, out := [] } ∧
    exec .startEncDman s = .next { s with
      dir := .enc, scheme := 6#4, level := 1#3, phase := false, st := .run, ecode := .eNone, out := [] } ∧
    exec .startEncAmi s = .next { s with
      dir := .enc, scheme := 7#4, level := 1#3, phase := false, st := .run, ecode := .eNone, out := [] } ∧
    exec .startEncPst s = .next { s with
      dir := .enc, scheme := 8#4, level := 1#3, phase := false, st := .run, ecode := .eNone, out := [] } ∧
    exec .startEnc2B1Q s = .next { s with
      dir := .enc, scheme := 9#4, level := 1#3, phase := false, st := .run, ecode := .eNone, out := [] }

/-- Each START.DEC row begins a call under its scheme in every state, and writes nothing else (derived:
40_commands_and_mux.md section 3; 30_encoding.md section 2 (scheme codes)). -/
def Obligations.StartDecodeInstructions : Prop :=
  ∀ s : State,
    exec .startDecUni s = .next { s with
      dir := .dec, scheme := 1#4, level := 1#3, phase := false, st := .run, ecode := .eNone, out := [] } ∧
    exec .startDecNrzl s = .next { s with
      dir := .dec, scheme := 2#4, level := 1#3, phase := false, st := .run, ecode := .eNone, out := [] } ∧
    exec .startDecNrzi s = .next { s with
      dir := .dec, scheme := 3#4, level := 1#3, phase := false, st := .run, ecode := .eNone, out := [] } ∧
    exec .startDecRz s = .next { s with
      dir := .dec, scheme := 4#4, level := 1#3, phase := false, st := .run, ecode := .eNone, out := [] } ∧
    exec .startDecMan s = .next { s with
      dir := .dec, scheme := 5#4, level := 1#3, phase := false, st := .run, ecode := .eNone, out := [] } ∧
    exec .startDecDman s = .next { s with
      dir := .dec, scheme := 6#4, level := 1#3, phase := false, st := .run, ecode := .eNone, out := [] } ∧
    exec .startDecAmi s = .next { s with
      dir := .dec, scheme := 7#4, level := 1#3, phase := false, st := .run, ecode := .eNone, out := [] } ∧
    exec .startDecPst s = .next { s with
      dir := .dec, scheme := 8#4, level := 1#3, phase := false, st := .run, ecode := .eNone, out := [] } ∧
    exec .startDec2B1Q s = .next { s with
      dir := .dec, scheme := 9#4, level := 1#3, phase := false, st := .run, ecode := .eNone, out := [] }

/-- A START word with any dir, scheme and din, in any state, begins a call for schemes 1..9 and raises E_SELECT for the
others (R93). -/
def Obligations.StartWordBeginsACallOrRaisesSelect : Prop :=
  (∀ (s : State) (d : Dir) (code : SchemeCode) (din : Lane),
    step (s.present [.word (assembleWord 0b01#2 d code din)]) = .next
      (if 1 ≤ code.toNat ∧ code.toNat ≤ 9 then
        { s with
          dir := d, scheme := code, level := 1#3, phase := false, st := .run, ecode := .eNone, out := [] }
      else
        { s with
          dir := d, scheme := code, level := 1#3, phase := false, st := .err, ecode := .eSelect, out := [] })) ∧
  (∀ t, step (State.reset.present [.word 0x1B8#10]) = .next t →
    t.dir = .dec ∧ t.scheme = 7#4 ∧ sext3 t.level = 1 ∧ t.phase = false ∧ t.st = .run ∧ t.ecode = .eNone ∧ t.out = [])

/-- A START with scheme 0 or 10..15 raises E_SELECT on its own result word, the PUSHes and ENDs after it do nothing, and
its call has failed (R181). -/
def Obligations.IllegalSelectionIsReportedAtOnceAndVoidsTheCall : Prop :=
  ∀ (s : State) (d : Dir) (code : SchemeCode) (din : Lane), code.toNat = 0 ∨ 10 ≤ code.toNat →
    ∃ t, step (s.present [.word (assembleWord 0b01#2 d code din)]) = .next t ∧
      t.st = .err ∧ t.ecode = .eSelect ∧ t.out = [] ∧
      (∀ x0 x1 : Lane, (t.resultWord x0 x1).extractLsb' 0 5 = 0b11001#5 ∧ (t.resultWord x0 x1).extractLsb' 11 2 = 0#2) ∧
      (∀ ps : List PortInput, (∀ p ∈ ps, p.abandons = false) → runInputs ps t = .next (t, [])) ∧
      (∀ ps : List PortInput,
        callResult (.word (assembleWord 0b01#2 d code din) :: ps) s = some (.failed .eSelect))

/-- Outside RUN, PUSH (any din) and END write no register, emit nothing and raise nothing (R99). -/
def Obligations.PushAndEndOutsideRunAreIgnored : Prop :=
  ∀ (s : State) (din : Lane), s.st ≠ .run →
    exec (.push din) s = .next { s with out := [] } ∧ exec .endCall s = .next { s with out := [] }

/-- In an ENC call a PUSH of 2..7 raises E_BADBIT and stores nothing (R185). -/
def Obligations.PushOfANonBitRaisesBadBit : Prop :=
  ∀ (s : State) (din : Lane), s.st = .run → s.dir = .enc → 2 ≤ din.toNat →
    exec (.push din) s = .next { s with st := .err, ecode := .eBadbit, out := [] }

/-- In the four call types of unit size 2, a PUSH with PHASE = 0 stores its element in HOLD and emits nothing (R95). -/
def Obligations.FirstElementOfAPairFillsHold : Prop :=
  (∀ (d : Dir) (S : Scheme), unitIn d S = 2 ↔
    (d = .enc ∧ S = .twoB1Q) ∨ (d = .dec ∧ (S = .rz ∨ S = .man ∨ S = .dman))) ∧
  (∀ (d : Dir) (S : Scheme) (s : State) (din : Lane), InCall d S s → unitIn d S = 2 → s.phase = false →
    (d = .enc → din.toNat ≤ 1) →
    exec (.push din) s = .next { s with hold := din, phase := true, out := [] }) ∧
  (∀ s : State, InCall .dec .man s → s.phase = false →
    exec (.push 7#3) s = .next { s with hold := 7#3, phase := true, out := [] } ∧ sext3 7#3 = -1)

/-- A step emits UOUT elements if it is a PUSH that completes a unit without error, and nothing otherwise; the result word
shows the count, ST and ECODE after it (R101). -/
def Obligations.StepEmitsOneUnitOrNothing : Prop :=
  ∀ (p : PortInput) (s t : State), cycle p s = .next t →
    (t.out ≠ [] → ∃ S din, p.command = some (.instr (.push din)) ∧ InCall s.dir S s ∧
      (unitIn s.dir S = 1 ∨ s.phase = true) ∧ t.st = .run ∧ t.out.length = unitOut s.dir S) ∧
    (∀ S din, p.command = some (.instr (.push din)) → InCall s.dir S s → (unitIn s.dir S = 1 ∨ s.phase = true) →
      t.st = .run → t.out.length = unitOut s.dir S) ∧
    (∀ x0 x1 : Lane, (t.resultWord x0 x1).extractLsb' 11 2 = BitVec.ofNat 2 t.out.length ∧
      (t.resultWord x0 x1).extractLsb' 3 2 = t.st.code ∧ (t.resultWord x0 x1).extractLsb' 0 3 = t.ecode.code)

/-- END: DONE when no element dangles, E_ODDLEN in a DEC call with a dangling sample, and the policy's answer in an ENC
call with a dangling bit (R97). -/
def Obligations.EndOfACall : Prop :=
  (∀ s : State, s.st ≠ .run → exec .endCall s = .next { s with out := [] }) ∧
  (∀ s : State, s.st = .run → s.phase = false → exec .endCall s = .next { s with st := .done, out := [] }) ∧
  (∀ s : State, s.st = .run → s.phase = true → s.dir = .dec →
    exec .endCall s = .next { s with st := .err, ecode := .eOddlen, out := [] }) ∧
  (∀ s : State, s.st = .run → s.phase = true → s.dir = .enc → s.policy = .truncate →
    exec .endCall s = .next { s with phase := false, st := .done, out := [] }) ∧
  (∀ s : State, s.st = .run → s.phase = true → s.dir = .enc → s.policy = .reject →
    exec .endCall s = .next { s with st := .err, ecode := .eOddlen, out := [] }) ∧
  (∀ s : State, s.Inv → s.st = .run → s.phase = true →
    (s.dir = .dec ∧ (s.scheme = 4#4 ∨ s.scheme = 5#4 ∨ s.scheme = 6#4)) ∨ (s.dir = .enc ∧ s.scheme = 9#4))

/-- The complete transition table of ST over RST, NOP, START, PUSH and END (R91). -/
def Obligations.StatusTransitions : Prop :=
  ∀ (p : PortInput) (s t : State), cycle p s = .next t →
    (p.rst = true → t.st = .idle) ∧
    (p.command = some (.instr .nop) → t.st = s.st) ∧
    (∀ d S, p.command = some (.instr (startInstr d S)) → t.st = .run) ∧
    (∀ d code, p.command = some (.illegalSelection d code) → t.st = .err ∧ t.ecode = .eSelect) ∧
    (∀ din, p.command = some (.instr (.push din)) →
      (s.st ≠ .run → t.st = s.st) ∧
      (s.st = .run → t.st = .run ∨
        (t.st = .err ∧ (t.ecode = .eBadbit ∨ t.ecode = .eTransition ∨ t.ecode = .eSignal)))) ∧
    (p.command = some (.instr .endCall) →
      (s.st ≠ .run → t.st = s.st) ∧
      (s.st = .run → t.st = .done ∨ (t.st = .err ∧ t.ecode = .eOddlen)))

/-- A step that raises writes ST and ECODE and nothing else, and emits nothing (derived: 60_exceptions.md section 4 (error
entry); 00_scope.md section 6 (raise)). -/
def Obligations.RaiseWritesOnlyStatusAndCode : Prop :=
  (∀ (p : PortInput) (s t : State), cycle p s = .next t → s.st ≠ .err → t.st = .err → p.abandons = false →
    t = { s with st := .err, ecode := t.ecode, out := [] } ∧ t.ecode ≠ .eNone) ∧
  (∀ (p : PortInput) (s t : State), cycle p s = .next t → t.st = .err → p.abandons = true →
    t = { s with
      dir := dirField p.pv, scheme := schemeField p.pv, level := 1#3, phase := false,
      st := .err, ecode := .eSelect, out := [] })

/-- In ERR no stream of commands without START and RST changes any register or emits anything (R191). -/
def Obligations.ErrorIsSticky : Prop :=
  ∀ (ps : List PortInput) (s : State), s.st = .err → (∀ p ∈ ps, p.abandons = false) →
    runInputs ps s = .next ({ s with out := if ps = [] then s.out else [] }, [])

/-- While PHASE = 0 the value of HOLD affects nothing (derived: 10_state.md sections 2 and 7 (HOLD)). -/
def Obligations.HoldIsReadOnlyWhilePhaseIsSet : Prop :=
  ∀ (p : PortInput) (s : State) (h : Lane) (t : State), s.phase = false → cycle p s = .next t →
    ∃ h' : Lane, cycle p { s with hold := h } = .next { t with hold := h' } ∧ (t.phase = true → h' = t.hold)

/-- After a START nothing that happened before it can be observed, whatever inputs follow (derived:
70_reset_and_hazards.md section 1 (initialisation at the start of a call); 43_call_level_and_laws.md section 1 (the
result does not depend on the state before)). -/
def Obligations.CallsDoNotDependOnTheirPast : Prop :=
  ∀ (s s' : State) (p : PortInput) (ps : List PortInput) (u : State) (o : List Element), s.policy = s'.policy →
    p.rst = false → cmdField p.pv = 1#2 → runInputs (p :: ps) s = .next (u, o) →
    ∃ u' : State, runInputs (p :: ps) s' = .next (u', o) ∧ SameBehaviour u u'

/-- What PUSH and END leave unchanged (derived: 10_state.md section 8 (access table)). -/
def Obligations.PushAndEndFrame : Prop :=
  (∀ (din : Lane) (s t : State), exec (.push din) s = .next t →
    t.dir = s.dir ∧ t.scheme = s.scheme ∧ t.policy = s.policy ∧ t.pending = s.pending ∧ t.freeIndex = s.freeIndex ∧
    (t.hold = s.hold ∨ (s.st = .run ∧ s.phase = false ∧ t.phase = true ∧ t.hold = din)) ∧
    (t.ecode = s.ecode ∨ (s.st = .run ∧ t.st = .err)) ∧
    (t.level = s.level ∨ (s.st = .run ∧ t.st = .run ∧ t.phase = false ∧
      ((s.dir = .enc ∧ (s.scheme = 3#4 ∨ s.scheme = 6#4 ∨ s.scheme = 7#4 ∨ s.scheme = 8#4 ∨ s.scheme = 9#4)) ∨
       (s.dir = .dec ∧ (s.scheme = 3#4 ∨ s.scheme = 6#4 ∨ s.scheme = 7#4 ∨ s.scheme = 9#4)))))) ∧
  (∀ s t : State, exec .endCall s = .next t →
    t.level = s.level ∧ t.hold = s.hold ∧ t.dir = s.dir ∧ t.scheme = s.scheme ∧ t.policy = s.policy ∧
    t.pending = s.pending ∧ t.freeIndex = s.freeIndex ∧ (t.ecode = s.ecode ∨ (s.st = .run ∧ t.st = .err)))

/-- The fields of the 13-bit result word, whatever the lanes that are not valid hold (R71). -/
def Obligations.ResultWordShowsTheEmission : Prop :=
  (∀ (s : State) (x0 x1 : Lane),
    (s.resultWord x0 x1).extractLsb' 11 2 = BitVec.ofNat 2 s.out.length ∧
    (∀ a rest, s.out = a :: rest → (s.resultWord x0 x1).extractLsb' 8 3 = a.lane) ∧
    (∀ a b rest, s.out = a :: b :: rest → (s.resultWord x0 x1).extractLsb' 5 3 = b.lane) ∧
    (s.resultWord x0 x1).extractLsb' 3 2 = s.st.code ∧ (s.resultWord x0 x1).extractLsb' 0 3 = s.ecode.code ∧
    (s.busy = true ↔ (s.resultWord x0 x1).extractLsb' 3 2 = 0b01#2) ∧
    (s.doneLine = true ↔ (s.resultWord x0 x1).extractLsb' 3 2 = 0b10#2) ∧
    (s.errLine = true ↔ (s.resultWord x0 x1).extractLsb' 3 2 = 0b11#2)) ∧
  (∀ s : State, s.Inv → s.out.length ≤ 2) ∧
  (∀ v : Int, -4 ≤ v → v ≤ 3 → sext3 (Element.level v).lane = v) ∧
  (∀ b : Bit, (Element.bit b).lane = bitLane b)

/-- ENC.UNI: bit 1 is sent as 1 and bit 0 as 0, with no state (R120). -/
def Obligations.EncUniUnit : Prop :=
  (∀ din : Lane, decode (0x108#10 ||| din.setWidth 10) = .instr .startEncUni) ∧
  (∀ (s : State) (b : Bit), InCall .enc .uni s →
    exec (.push (bitLane b)) s = .next { s with phase := false, out := [.level (if b then 1 else 0)] }) ∧
  (∀ p, encodeCall p .uni [false, true, false, false, false, false, false, true] = .ok [0, 1, 0, 0, 0, 0, 0, 1])

/-- ENC.NRZL: bit 1 is sent as -1 and bit 0 as +1, with no state (R121). -/
def Obligations.EncNrzlUnit : Prop :=
  (∀ din : Lane, decode (0x110#10 ||| din.setWidth 10) = .instr .startEncNrzl) ∧
  (∀ (s : State) (b : Bit), InCall .enc .nrzl s →
    exec (.push (bitLane b)) s = .next { s with phase := false, out := [.level (if b then -1 else 1)] }) ∧
  (∀ p, encodeCall p .nrzl [false, true, true, false] = .ok [1, -1, -1, 1])

/-- ENC.NRZI: bit 1 flips the carried level, bit 0 repeats it, and the result is emitted and carried (R122). -/
def Obligations.EncNrziUnit : Prop :=
  (∀ din : Lane, decode (0x118#10 ||| din.setWidth 10) = .instr .startEncNrzi) ∧
  (∀ (s : State) (L : Int), InCall .enc .nrzi s → sext3 s.level = L → L = 1 ∨ L = -1 →
    exec (.push (bitLane true)) s = .next { s with level := tc3 (-L), phase := false, out := [.level (-L)] } ∧
    exec (.push (bitLane false)) s = .next { s with phase := false, out := [.level L] }) ∧
  (∀ p, encodeCall p .nrzi [true, false, true, true, false] = .ok [-1, -1, 1, -1, -1])

/-- ENC.RZ: bit 1 is sent as [1,0] and bit 0 as [-1,0], with no state (R123). -/
def Obligations.EncRzUnit : Prop :=
  (∀ din : Lane, decode (0x120#10 ||| din.setWidth 10) = .instr .startEncRz) ∧
  (∀ (s : State) (b : Bit), InCall .enc .rz s →
    exec (.push (bitLane b)) s = .next { s with phase := false, out := [.level (if b then 1 else -1), .level 0] }) ∧
  (∀ p, encodeCall p .rz [true, false] = .ok [1, 0, -1, 0])

/-- ENC.MAN: bit 1 is sent as [-1,1] and bit 0 as [1,-1], with no state (R124). -/
def Obligations.EncManUnit : Prop :=
  (∀ din : Lane, decode (0x128#10 ||| din.setWidth 10) = .instr .startEncMan) ∧
  (∀ (s : State) (b : Bit), InCall .enc .man s →
    exec (.push (bitLane b)) s = .next
      { s with phase := false, out := if b then [.level (-1), .level 1] else [.level 1, .level (-1)] }) ∧
  (∀ p, encodeCall p .man [true, false] = .ok [-1, 1, 1, -1])

/-- ENC.DMAN: bit 0 emits [-L, L] and keeps the carried level, bit 1 emits [L, -L] and inverts it (R125). -/
def Obligations.EncDmanUnit : Prop :=
  (∀ din : Lane, decode (0x130#10 ||| din.setWidth 10) = .instr .startEncDman) ∧
  (∀ (s : State) (L : Int), InCall .enc .dman s → sext3 s.level = L → L = 1 ∨ L = -1 →
    exec (.push (bitLane false)) s = .next { s with phase := false, out := [.level (-L), .level L] } ∧
    exec (.push (bitLane true)) s = .next
      { s with level := tc3 (-L), phase := false, out := [.level L, .level (-L)] }) ∧
  (∀ p, encodeCall p .dman [false, true, true, false] = .ok [-1, 1, 1, -1, -1, 1, -1, 1])

/-- ENC.AMI: bit 1 emits the carried polarity and flips it, bit 0 emits 0 and keeps it (R126). -/
def Obligations.EncAmiUnit : Prop :=
  (∀ din : Lane, decode (0x138#10 ||| din.setWidth 10) = .instr .startEncAmi) ∧
  (∀ (s : State) (L : Int), InCall .enc .ami s → sext3 s.level = L → L = 1 ∨ L = -1 →
    exec (.push (bitLane true)) s = .next { s with level := tc3 (-L), phase := false, out := [.level L] } ∧
    exec (.push (bitLane false)) s = .next { s with phase := false, out := [.level 0] }) ∧
  (∀ p, encodeCall p .ami [true, true, false, true] = .ok [1, -1, 0, 1])

/-- ENC.PST: bit 0 emits the carried polarity and flips it, bit 1 emits 0 and keeps it; it is AMI of the complement
(R127). -/
def Obligations.EncPstUnit : Prop :=
  (∀ din : Lane, decode (0x140#10 ||| din.setWidth 10) = .instr .startEncPst) ∧
  (∀ (s : State) (L : Int), InCall .enc .pst s → sext3 s.level = L → L = 1 ∨ L = -1 →
    exec (.push (bitLane false)) s = .next { s with level := tc3 (-L), phase := false, out := [.level L] } ∧
    exec (.push (bitLane true)) s = .next { s with phase := false, out := [.level 0] }) ∧
  (∀ (L : Int) (b : Bit), encPst L b = encAmi L (!b)) ∧
  (∀ p, encodeCall p .pst [false, true, false, false] = .ok [1, 0, -1, 1])

/-- ENC.2B1Q: the 16 entries of the table from carried level and bit pair to the emitted and carried level (R128). -/
def Obligations.Enc2B1QUnit : Prop :=
  (∀ din : Lane, decode (0x148#10 ||| din.setWidth 10) = .instr .startEnc2B1Q) ∧
  (∀ (s : State) (L : Int) (b0 b1 : Bit) (v : Int), (L, b0, b1, v) ∈ ([
      (1, false, false, 1), (1, false, true, 3), (1, true, false, -1), (1, true, true, -3),
      (3, false, false, 1), (3, false, true, 3), (3, true, false, -1), (3, true, true, -3),
      (-1, false, false, -1), (-1, false, true, -3), (-1, true, false, 1), (-1, true, true, 3),
      (-3, false, false, -1), (-3, false, true, -3), (-3, true, false, 1), (-3, true, true, 3)] :
      List (Int × Bit × Bit × Int)) →
    InCall .enc .twoB1Q s → s.phase = true → s.hold = bitLane b0 → sext3 s.level = L →
    exec (.push (bitLane b1)) s = .next { s with level := tc3 v, phase := false, out := [.level v] }) ∧
  (∀ p, encodeCall p .twoB1Q [false, false, false, true] = .ok [1, 3])

/-- DEC.UNI: level +1 is bit 1, every other level bit 0, with no state and no error (R140). -/
def Obligations.DecUniUnit : Prop :=
  (∀ din : Lane, decode (0x188#10 ||| din.setWidth 10) = .instr .startDecUni) ∧
  (∀ (s : State) (din : Lane), InCall .dec .uni s →
    exec (.push din) s = .next { s with phase := false, out := [.bit (decide (sext3 din = 1))] }) ∧
  decodeCall .uni [0, 1, 0, 0, 0, 0, 0, 1] = .ok [false, true, false, false, false, false, false, true] ∧
  decodeCall .uni [3, 1, -4, 0] = .ok [false, true, false, false]

/-- DEC.NRZL: level -1 is bit 1, every other level bit 0, with no state and no error (R141). -/
def Obligations.DecNrzlUnit : Prop :=
  (∀ din : Lane, decode (0x190#10 ||| din.setWidth 10) = .instr .startDecNrzl) ∧
  (∀ (s : State) (din : Lane), InCall .dec .nrzl s →
    exec (.push din) s = .next { s with phase := false, out := [.bit (decide (sext3 din = -1))] }) ∧
  decodeCall .nrzl [1, -1, -1, 1] = .ok [false, true, true, false] ∧
  decodeCall .nrzl [0, -1, 2, 1] = .ok [false, true, false, false]

/-- DEC.NRZI: a level equal to the carried level is bit 0, any other bit 1; LEVEL becomes the observed level (R142). -/
def Obligations.DecNrziUnit : Prop :=
  (∀ din : Lane, decode (0x198#10 ||| din.setWidth 10) = .instr .startDecNrzi) ∧
  (∀ (s : State) (din : Lane), InCall .dec .nrzi s →
    exec (.push din) s = .next
      { s with level := din, phase := false, out := [.bit (decide (sext3 din ≠ sext3 s.level))] }) ∧
  decodeCall .nrzi [0, 0, 3, 3, 1] = .ok [true, false, true, false, true] ∧
  decodeCall .nrzi [-1, -1, 1, -1, -1] = .ok [true, false, true, true, false]

/-- DEC.RZ: a pair whose first sample is +1 is bit 1, any other bit 0; the second sample is not examined (R143). -/
def Obligations.DecRzUnit : Prop :=
  (∀ din : Lane, decode (0x1A0#10 ||| din.setWidth 10) = .instr .startDecRz) ∧
  (∀ (s : State) (din : Lane), InCall .dec .rz s → s.phase = true →
    exec (.push din) s = .next { s with phase := false, out := [.bit (decide (sext3 s.hold = 1))] } ∧
    exec .endCall s = .next { s with st := .err, ecode := .eOddlen, out := [] }) ∧
  decodeCall .rz [1, 0, -1, 0] = .ok [true, false] ∧
  decodeCall .rz [1, 1, -1, -1, 0, 0, 1, 0] = .ok [true, false, false, true]

/-- DEC.MAN: pair (-1,1) is bit 1, (1,-1) bit 0, and each of the other 62 pairs raises E_TRANSITION (R144). -/
def Obligations.DecManUnit : Prop :=
  (∀ din : Lane, decode (0x1A8#10 ||| din.setWidth 10) = .instr .startDecMan) ∧
  (∀ (s : State) (din : Lane), InCall .dec .man s → s.phase = true →
    exec (.push din) s = .next
      (if sext3 s.hold = -1 ∧ sext3 din = 1 then { s with phase := false, out := [.bit true] }
      else if sext3 s.hold = 1 ∧ sext3 din = -1 then { s with phase := false, out := [.bit false] }
      else { s with st := .err, ecode := .eTransition, out := [] }) ∧
    exec .endCall s = .next { s with st := .err, ecode := .eOddlen, out := [] }) ∧
  decodeCall .man [-1, 1, 1, -1] = .ok [true, false] ∧
  decodeCall .man [1, 1] = .error .eTransition

/-- DEC.DMAN: a pair whose first sample equals the carried level is bit 1, any other bit 0; the second sample is carried
(R145). -/
def Obligations.DecDmanUnit : Prop :=
  (∀ din : Lane, decode (0x1B0#10 ||| din.setWidth 10) = .instr .startDecDman) ∧
  (∀ (s : State) (din : Lane), InCall .dec .dman s → s.phase = true →
    exec (.push din) s = .next
      { s with level := din, phase := false, out := [.bit (decide (sext3 s.hold = sext3 s.level))] } ∧
    exec .endCall s = .next { s with st := .err, ecode := .eOddlen, out := [] }) ∧
  decodeCall .dman [-1, 1, 1, -1, -1, 1, -1, 1] = .ok [false, true, true, false] ∧
  decodeCall .dman [1, 1] = .ok [true] ∧
  decodeCall .dman [-1, -1, -1, 3] = .ok [false, true]

/-- DEC.AMI: 0 is bit 0, the carried polarity is bit 1 and flips it, any other level raises E_SIGNAL (R146). -/
def Obligations.DecAmiUnit : Prop :=
  (∀ din : Lane, decode (0x1B8#10 ||| din.setWidth 10) = .instr .startDecAmi) ∧
  (∀ (s : State) (L : Int) (din : Lane), InCall .dec .ami s → sext3 s.level = L → L = 1 ∨ L = -1 →
    exec (.push din) s = .next
      (if sext3 din = 0 then { s with phase := false, out := [.bit false] }
      else if sext3 din = L then { s with level := tc3 (-L), phase := false, out := [.bit true] }
      else { s with st := .err, ecode := .eSignal, out := [] })) ∧
  decodeCall .ami [1, -1, 0, 1] = .ok [true, true, false, true] ∧
  decodeCall .ami [-1] = .error .eSignal ∧ decodeCall .ami [1, -1, -1] = .error .eSignal

/-- DEC.PST: 0 is bit 1, every other level bit 0; polarity is not checked and no state is kept (R147). -/
def Obligations.DecPstUnit : Prop :=
  (∀ din : Lane, decode (0x1C0#10 ||| din.setWidth 10) = .instr .startDecPst) ∧
  (∀ (s : State) (din : Lane), InCall .dec .pst s →
    exec (.push din) s = .next { s with phase := false, out := [.bit (decide (sext3 din = 0))] }) ∧
  decodeCall .pst [1, 1, 1] = .ok [false, false, false] ∧
  decodeCall .pst [1, -1, 0, 3, -4] = .ok [false, false, true, false, false] ∧
  decodeCall .pst [1, 0, -1, 1] = .ok [false, true, false, false]

/-- DEC.2B1Q: the 16 entries of the inverted table, and E_TRANSITION for the levels 0, 2, -2 and -4 (R148). -/
def Obligations.Dec2B1QUnit : Prop :=
  (∀ din : Lane, decode (0x1C8#10 ||| din.setWidth 10) = .instr .startDec2B1Q) ∧
  (∀ (s : State) (L v : Int) (b0 b1 : Bit), (L, v, b0, b1) ∈ ([
      (1, 1, false, false), (1, 3, false, true), (1, -1, true, false), (1, -3, true, true),
      (3, 1, false, false), (3, 3, false, true), (3, -1, true, false), (3, -3, true, true),
      (-1, -1, false, false), (-1, -3, false, true), (-1, 1, true, false), (-1, 3, true, true),
      (-3, -1, false, false), (-3, -3, false, true), (-3, 1, true, false), (-3, 3, true, true)] :
      List (Int × Int × Bit × Bit)) →
    InCall .dec .twoB1Q s → sext3 s.level = L →
    exec (.push (tc3 v)) s = .next { s with level := tc3 v, phase := false, out := [.bit b0, .bit b1] }) ∧
  (∀ (s : State) (din : Lane), InCall .dec .twoB1Q s →
    sext3 din = 0 ∨ sext3 din = 2 ∨ sext3 din = -2 ∨ sext3 din = -4 →
    exec (.push din) s = .next { s with st := .err, ecode := .eTransition, out := [] }) ∧
  decodeCall .twoB1Q [1, 3] = .ok [false, false, false, true] ∧
  decodeCall .twoB1Q [1, 2] = .error .eTransition

/-- An encode call at the command level computes encode, from any state, with NOPs anywhere (derived:
43_call_level_and_laws.md section 1 (the command level computes the call level); 60_exceptions.md section 1
(E_BADBIT)). -/
def Obligations.EncodeCallRunsTheCallLevelFunction : Prop :=
  ∀ (s : State) (S : Scheme) (xs : List Lane) (ps : List PortInput), commandsOf ps = callCommands .enc S xs →
    ((∀ x ∈ xs, x.toNat ≤ 1) →
      ∃ u, runInputs ps s = .next (u, (encodeEmitted S (xs.map bitOfLane)).map .level) ∧
        (match encodeCall s.policy S (xs.map bitOfLane) with
          | .ok out => u.st = .done ∧ u.ecode = .eNone ∧ out = encodeEmitted S (xs.map bitOfLane)
          | .error e => u.st = .err ∧ u.ecode = e)) ∧
    (∀ (front : List Lane) (bad : Lane) (back : List Lane), xs = front ++ bad :: back →
      (∀ x ∈ front, x.toNat ≤ 1) → 2 ≤ bad.toNat →
      ∃ u, runInputs ps s = .next (u, (encodeEmitted S (front.map bitOfLane)).map .level) ∧
        u.st = .err ∧ u.ecode = .eBadbit)

/-- A decode call at the command level computes decode, from any state, with NOPs anywhere (derived:
43_call_level_and_laws.md section 1 (the command level computes the call level)). -/
def Obligations.DecodeCallRunsTheCallLevelFunction : Prop :=
  ∀ (s : State) (S : Scheme) (xs : List Lane) (ps : List PortInput), commandsOf ps = callCommands .dec S xs →
    ∃ u, runInputs ps s = .next (u, (decodeEmitted S (xs.map sext3)).map .bit) ∧
      (match decodeCall S (xs.map sext3) with
        | .ok out => u.st = .done ∧ u.ecode = .eNone ∧ out = decodeEmitted S (xs.map sext3)
        | .error e => u.st = .err ∧ u.ecode = e)

/-- On the machine, decoding the samples an encode call emits gives the bits back, an odd 2B1Q bit string without its last
under TRUNCATE and not under REJECT (derived: 43_call_level_and_laws.md sections 1 and 2 (round-trip law);
70_reset_and_hazards.md section 3 (same scheme, same start)). -/
def Obligations.MachineRoundTrip : Prop :=
  (∀ (s s' : State) (S : Scheme) (bits : List Bit),
    ¬ (S = .twoB1Q ∧ bits.length % 2 = 1 ∧ s.policy = .reject) →
    ∃ (u u' : State) (sig : List Int),
      runInputs (callInputs .enc S (bits.map bitLane)) s = .next (u, sig.map .level) ∧ u.st = .done ∧
      runInputs (callInputs .dec S (sig.map tc3)) s' = .next
        (u', (if S = .twoB1Q ∧ bits.length % 2 = 1 then bits.dropLast else bits).map .bit) ∧
      u'.st = .done) ∧
  (∀ (s : State) (bits : List Bit), bits.length % 2 = 1 → s.policy = .reject →
    ∃ (u : State) (o : List Element), runInputs (callInputs .enc .twoB1Q (bits.map bitLane)) s = .next (u, o) ∧
      u.st = .err ∧ u.ecode = .eOddlen)

/-- The empty input is legal for every call and gives the empty output (R163). -/
def Obligations.EmptyInputGivesEmptyOutput : Prop :=
  ∀ (S : Scheme), (∀ p, encodeCall p S [] = .ok []) ∧ decodeCall S [] = .ok [] ∧
    ∀ (s : State) (d : Dir), ∃ u, runInputs (callInputs d S []) s = .next (u, []) ∧ u.st = .done

/-- The length of an encoded signal and of a decoded bit string, scheme by scheme (R164). -/
def Obligations.LengthLaw : Prop :=
  (∀ (p : OddPolicy) (S : Scheme) (bits : List Bit) (sig : List Int), encodeCall p S bits = .ok sig →
    match S with
    | .rz | .man | .dman => sig.length = 2 * bits.length
    | .twoB1Q => (bits.length % 2 = 0 → 2 * sig.length = bits.length) ∧
        (bits.length % 2 = 1 → p = .truncate ∧ 2 * sig.length = bits.length - 1)
    | _ => sig.length = bits.length) ∧
  (∀ (S : Scheme) (sig : List Int) (bits : List Bit), decodeCall S sig = .ok bits →
    match S with
    | .rz | .man | .dman => 2 * bits.length = sig.length
    | .twoB1Q => bits.length = 2 * sig.length
    | _ => bits.length = sig.length)

/-- Every sample encode emits is in the scheme's alphabet, which fits three bits (R165). -/
def Obligations.EmittedLevelsAreInTheAlphabet : Prop :=
  (∀ (p : OddPolicy) (S : Scheme) (bits : List Bit) (sig : List Int), encodeCall p S bits = .ok sig →
    ∀ v ∈ sig, v ∈ (match S with
      | .uni => [0, 1]
      | .nrzl => [-1, 1]
      | .nrzi => [-1, 1]
      | .rz => [-1, 0, 1]
      | .man => [-1, 1]
      | .dman => [-1, 1]
      | .ami => [-1, 0, 1]
      | .pst => [-1, 0, 1]
      | .twoB1Q => [-3, -1, 1, 3] : List Int) ∧
      v ∈ ([-3, -1, 0, 1, 3] : List Int) ∧ sext3 (tc3 v) = v) ∧
  (∀ (p : OddPolicy) (bits : List Bit) (sig : List Int), encodeCall p .rz bits = .ok sig →
    ∀ (i : Nat) (v : Int), sig[i]? = some v → (i % 2 = 0 → v = -1 ∨ v = 1) ∧ (i % 2 = 1 → v = 0))

/-- Decoding an encoded signal with the same scheme gives the bits back, except that an odd 2B1Q bit string under TRUNCATE
loses its last bit (R166). -/
def Obligations.RoundTripLaw : Prop :=
  ∀ (p : OddPolicy) (S : Scheme) (bits : List Bit) (sig : List Int), encodeCall p S bits = .ok sig →
    decodeCall S sig = .ok (if S = .twoB1Q ∧ bits.length % 2 = 1 then bits.dropLast else bits) ∧
    (S = .twoB1Q ∧ bits.length % 2 = 1 → p = .truncate)

/-- Pseudoternary round-trips, its decoder validates nothing, and the AMI decoder reads its signals as the complement
(R168). -/
def Obligations.PseudoternaryAsymmetry : Prop :=
  (∀ (p : OddPolicy) (bits : List Bit), ∃ sig, encodeCall p .pst bits = .ok sig ∧ decodeCall .pst sig = .ok bits ∧
    decodeCall .ami sig = .ok (bits.map (fun b => !b)) ∧ encodeCall p .ami (bits.map (fun b => !b)) = .ok sig) ∧
  (∀ sig : List Int, ∃ bits, decodeCall .pst sig = .ok bits) ∧
  decodeCall .pst [1, 1] = .ok [false, false] ∧ decodeCall .ami [1, 1] = .error .eSignal ∧
  (∀ p, encodeCall p .pst [false] = .ok [1]) ∧ decodeCall .ami [1] = .ok [true] ∧
  (∀ p, encodeCall p .pst [true, false] = .ok [0, 1]) ∧ decodeCall .ami [0, 1] = .ok [false, true]

/-- The document's three invalid signals are rejected, and the six decoders that validate nothing accept every signal of
suitable length (R169). -/
def Obligations.InvalidSignalsAreRejected : Prop :=
  decodeCall .man [1, 1] = .error .eTransition ∧ decodeCall .ami [1, 1] = .error .eSignal ∧
  decodeCall .twoB1Q [1, 2] = .error .eTransition ∧
  ∀ (S : Scheme) (sig : List Int), S ≠ .man → S ≠ .ami → S ≠ .twoB1Q → sig.length % unitIn .dec S = 0 →
    ∃ bits, decodeCall S sig = .ok bits

/-- Two different bit strings give two different signals (of even length for 2B1Q) (R170). -/
def Obligations.EncodeIsInjective : Prop :=
  ∀ (p : OddPolicy) (S : Scheme) (bits bits' : List Bit) (sig : List Int),
    (S = .twoB1Q → bits.length % 2 = 0 ∧ bits'.length % 2 = 0) →
    encodeCall p S bits = .ok sig → encodeCall p S bits' = .ok sig → bits = bits'

/-- A decoded signal re-encodes to itself for MAN, AMI and 2B1Q, and need not for any of the other six (R171). -/
def Obligations.DecodeIsALeftInverseOnly : Prop :=
  (∀ (p : OddPolicy) (S : Scheme) (sig : List Int) (bits : List Bit), S = .man ∨ S = .ami ∨ S = .twoB1Q →
    decodeCall S sig = .ok bits → encodeCall p S bits = .ok sig) ∧
  (∀ p, decodeCall .uni [3] = .ok [false] ∧ encodeCall p .uni [false] = .ok [0] ∧
    decodeCall .nrzl [0] = .ok [false] ∧ encodeCall p .nrzl [false] = .ok [1] ∧
    decodeCall .nrzi [0] = .ok [true] ∧ encodeCall p .nrzi [true] = .ok [-1] ∧
    decodeCall .rz [1, 1] = .ok [true] ∧ encodeCall p .rz [true] = .ok [1, 0] ∧
    decodeCall .dman [1, 1] = .ok [true] ∧ encodeCall p .dman [true] = .ok [1, -1] ∧
    decodeCall .pst [2] = .ok [false] ∧ encodeCall p .pst [false] = .ok [1])

/-- A failed decode has emitted exactly the output of the input before the failing unit (derived:
43_call_level_and_laws.md section 2 (prefix property of errors)). -/
def Obligations.ErrorsHaveThePrefixProperty : Prop :=
  ∀ (S : Scheme) (sig : List Int) (e : ECode), decodeCall S sig = .error e →
    (e ≠ .eOddlen → ∃ k, (k + 1) * unitIn .dec S ≤ sig.length ∧
      decodeCall S (sig.take (k * unitIn .dec S)) = .ok (decodeEmitted S sig) ∧
      decodeCall S (sig.take ((k + 1) * unitIn .dec S)) = .error e) ∧
    (e = .eOddlen → decodeCall S sig.dropLast = .ok (decodeEmitted S sig))

/-- The host's byte and bit order: most significant bit first, eight bits a byte, and back (R50). -/
def Obligations.BytesAndBitsAreMostSignificantFirst : Prop :=
  (∀ (bs : List (BitVec 8)) (k j : Nat) (b : BitVec 8), bs[k]? = some b → j < 8 →
    (bitsOfBytes bs)[8 * k + j]? = some (b.getLsbD (7 - j))) ∧
  (∀ bs : List (BitVec 8), (bitsOfBytes bs).length = 8 * bs.length ∧ bytesOfBits (bitsOfBytes bs) = some bs) ∧
  (∀ t0 t1 t2 t3 t4 t5 t6 t7 : Bit, ∃ b, bytesOfBits [t0, t1, t2, t3, t4, t5, t6, t7] = some [b] ∧
    b.toNat = t0.toNat * 128 + t1.toNat * 64 + t2.toNat * 32 + t3.toNat * 16 + t4.toNat * 8 + t5.toNat * 4 +
      t6.toNat * 2 + t7.toNat) ∧
  bitsOfBytes [0x41#8] = [false, true, false, false, false, false, false, true]
end

