-- ==== Sys2Proof/Laws/Units.lean ====
section
/-! SUPPORT. What the unit functions do from a legal carried level: the new carried level is legal (R21) and on three bits (R5), a success
emits UOUT elements (R54), an encoder's in the alphabet (R165), and a decoder's error is one of R187's. -/

namespace Sys2Proof.Machine

/-- An encoder of unit size 1 (R120 to R127). -/
theorem encoder_one_legal {S : Scheme} {f} (h : encoder S = .one f) {L : Int} (b : Bit) (hL : carries .enc S L) :
    ∃ L' o, f L b = .ok (L', o) ∧ carries .enc S L' ∧ (-4 ≤ L' ∧ L' ≤ 3) ∧ o.length = unitOut .enc S ∧ ∀ v ∈ o, v ∈ alphabet S := by
  cases S <;> simp only [encoder, UnitFn.one.injEq, reduceCtorEq] at h <;> subst h <;> simp only [carries] at hL <;>
    first
      | (rcases hL with rfl | rfl <;> cases b <;>
          exact ⟨_, _, rfl, by simp only [carries]; decide, by decide, by decide, by decide⟩)
      | (subst hL; cases b <;> exact ⟨_, _, rfl, by simp only [carries], by decide, by decide, by decide⟩)

/-- The encoder of unit size 2 (R128). -/
theorem encoder_two_legal {S : Scheme} {f} (h : encoder S = .two f) {L : Int} (b0 b1 : Bit) (hL : carries .enc S L) :
    ∃ L' o, f L b0 b1 = .ok (L', o) ∧ carries .enc S L' ∧ (-4 ≤ L' ∧ L' ≤ 3) ∧ o.length = unitOut .enc S ∧ ∀ v ∈ o, v ∈ alphabet S := by
  cases S <;> simp only [encoder, UnitFn.two.injEq, reduceCtorEq] at h
  subst h
  refine ⟨_, _, rfl, ?_⟩
  simp only [carries] at hL ⊢
  rcases hL with rfl | rfl | rfl | rfl <;> cases b0 <;> cases b1 <;> decide

/-- A decoder of unit size 1 (R140 to R142, R146 to R148). -/
theorem decoder_one_legal {S : Scheme} {f} (h : decoder S = .one f) {L v : Int} (hL : carries .dec S L) (hv : -4 ≤ v ∧ v ≤ 3) :
    (∃ L' o, f L v = .ok (L', o) ∧ carries .dec S L' ∧ (-4 ≤ L' ∧ L' ≤ 3) ∧ o.length = unitOut .dec S) ∨
    (∃ e, f L v = .error e ∧ e ∈ callErrors .truncate .dec S) := by
  cases S <;> simp only [decoder, UnitFn.one.injEq, reduceCtorEq] at h <;> subst h <;>
    simp [carries, decUni, decNrzl, decNrzi, decAmi, decPst, dec2B1Q, unitOut, callErrors] at hL ⊢
  · simp [hL]
  · simp [hL]
  · split <;> simp <;> omega
  · split
    · simp; omega
    · split
      · simp; omega
      · simp
  · simp [hL]
  · split
    · simp; omega
    · simp_all

/-- A decoder of unit size 2 (R143 to R145). -/
theorem decoder_two_legal {S : Scheme} {f} (h : decoder S = .two f) {L a c : Int} (hL : carries .dec S L) (hc : -4 ≤ c ∧ c ≤ 3) :
    (∃ L' o, f L a c = .ok (L', o) ∧ carries .dec S L' ∧ (-4 ≤ L' ∧ L' ≤ 3) ∧ o.length = unitOut .dec S) ∨
    (∃ e, f L a c = .error e ∧ e ∈ callErrors .truncate .dec S) := by
  cases S <;> simp only [decoder, UnitFn.two.injEq, reduceCtorEq] at h <;> subst h <;>
    simp [carries, decRz, decMan, decDman, unitOut, callErrors] at hL ⊢
  · simp [hL]
  · split
    · simp [hL]
    · split <;> simp [hL]
  · omega

/-- Whatever the carried level, an encoder emits UOUT samples (R54, R120 to R127). -/
theorem encoder_one_length {S : Scheme} {f} (h : encoder S = .one f) {L L' : Int} {b : Bit} {o : List Int}
    (hf : f L b = .ok (L', o)) : o.length = unitOut .enc S := by
  cases S <;> simp only [encoder, UnitFn.one.injEq, reduceCtorEq] at h <;> subst h <;> cases b <;> cases hf <;> rfl

/-- R54, R128. -/
theorem encoder_two_length {S : Scheme} {f} (h : encoder S = .two f) {L L' : Int} {b0 b1 : Bit} {o : List Int}
    (hf : f L b0 b1 = .ok (L', o)) : o.length = unitOut .enc S := by
  cases S <;> simp only [encoder, UnitFn.two.injEq, reduceCtorEq] at h
  subst h; cases hf; rfl

/-- Whatever the carried level, a decoder that succeeds emits UOUT bits (R54, R140 to R142, R146 to R148). -/
theorem decoder_one_length {S : Scheme} {f} (h : decoder S = .one f) {L v L' : Int} {o : List Bit}
    (hf : f L v = .ok (L', o)) : o.length = unitOut .dec S := by
  cases S <;> simp only [decoder, UnitFn.one.injEq, reduceCtorEq] at h <;> subst h <;>
    simp only [decUni, decNrzl, decNrzi, decAmi, decPst, dec2B1Q] at hf <;> (repeat' split at hf) <;> cases hf <;> rfl

/-- R54, R143 to R145. -/
theorem decoder_two_length {S : Scheme} {f} (h : decoder S = .two f) {L a c L' : Int} {o : List Bit}
    (hf : f L a c = .ok (L', o)) : o.length = unitOut .dec S := by
  cases S <;> simp only [decoder, UnitFn.two.injEq, reduceCtorEq] at h <;> subst h <;>
    simp only [decRz, decMan, decDman] at hf <;> (repeat' split at hf) <;> cases hf <;> rfl

theorem unitOut_pos (d : Dir) (S : Scheme) : 0 < unitOut d S := by cases d <;> cases S <;> decide

/-- The mux has an encoder of unit size 1 where R54 says so. -/
theorem unitIn_encoder_one {S : Scheme} {f} (h : encoder S = .one f) : unitIn .enc S = 1 := by
  cases S <;> first | rfl | (simp [encoder] at h)

/-- R54, R96. -/
theorem unitIn_encoder_two {S : Scheme} {f} (h : encoder S = .two f) : unitIn .enc S = 2 := by
  cases S <;> first | rfl | (simp [encoder] at h)

/-- R54, R96. -/
theorem unitIn_decoder_one {S : Scheme} {f} (h : decoder S = .one f) : unitIn .dec S = 1 := by
  cases S <;> first | rfl | (simp [decoder] at h)

/-- R54, R96. -/
theorem unitIn_decoder_two {S : Scheme} {f} (h : decoder S = .two f) : unitIn .dec S = 2 := by
  cases S <;> first | rfl | (simp [decoder] at h)

end Sys2Proof.Machine
end

