-- ==== Sys2Proof/Laws/Call.lean ====
section
/-! SUPPORT. The unit functions of the encoders on each bit, and the folds of the call level one unit at a time. -/

namespace Sys2Proof.Machine

/-! ### The encoders on each bit (R120 to R127) -/

@[simp] theorem encUni_one (L : Int) : encUni L true = (L, [1]) := rfl
@[simp] theorem encUni_zero (L : Int) : encUni L false = (L, [0]) := rfl
@[simp] theorem encNrzl_one (L : Int) : encNrzl L true = (L, [-1]) := rfl
@[simp] theorem encNrzl_zero (L : Int) : encNrzl L false = (L, [1]) := rfl
@[simp] theorem encNrzi_one (L : Int) : encNrzi L true = (-L, [-L]) := rfl
@[simp] theorem encNrzi_zero (L : Int) : encNrzi L false = (L, [L]) := rfl
@[simp] theorem encRz_one (L : Int) : encRz L true = (L, [1, 0]) := rfl
@[simp] theorem encRz_zero (L : Int) : encRz L false = (L, [-1, 0]) := rfl
@[simp] theorem encMan_one (L : Int) : encMan L true = (L, [-1, 1]) := rfl
@[simp] theorem encMan_zero (L : Int) : encMan L false = (L, [1, -1]) := rfl
@[simp] theorem encDman_one (L : Int) : encDman L true = (-L, [L, -L]) := rfl
@[simp] theorem encDman_zero (L : Int) : encDman L false = (L, [-L, L]) := by simp [encDman]
@[simp] theorem encAmi_one (L : Int) : encAmi L true = (-L, [L]) := rfl
@[simp] theorem encAmi_zero (L : Int) : encAmi L false = (L, [0]) := rfl
@[simp] theorem encPst_one (L : Int) : encPst L true = (L, [0]) := rfl
@[simp] theorem encPst_zero (L : Int) : encPst L false = (-L, [L]) := rfl

/-! ### One unit of a fold (R160, R161) -/

theorem foldOne_ok {α β : Type} {f : Int → α → Except ECode (Int × List β)} {L L' : Int} {x : α} {o : List β}
    (h : f L x = .ok (L', o)) (xs : List α) : foldOne f L (x :: xs) = (foldOne f L' xs).map (o ++ ·) := by
  simp [foldOne, h]

theorem foldOne_error {α β : Type} {f : Int → α → Except ECode (Int × List β)} {L : Int} {x : α} {e : ECode}
    (h : f L x = .error e) (xs : List α) : foldOne f L (x :: xs) = .error e := by
  simp [foldOne, h]

theorem foldTwo_ok {α β : Type} {f : Int → α → α → Except ECode (Int × List β)} {dangling : Option ECode} {L L' : Int}
    {x y : α} {o : List β} (h : f L x y = .ok (L', o)) (xs : List α) :
    foldTwo f dangling L (x :: y :: xs) = (foldTwo f dangling L' xs).map (o ++ ·) := by
  simp [foldTwo, h]

theorem foldTwo_error {α β : Type} {f : Int → α → α → Except ECode (Int × List β)} {dangling : Option ECode} {L : Int}
    {x y : α} {e : ECode} (h : f L x y = .error e) (xs : List α) : foldTwo f dangling L (x :: y :: xs) = .error e := by
  simp [foldTwo, h]

theorem emittedOne_ok {α β : Type} {f : Int → α → Except ECode (Int × List β)} {L L' : Int} {x : α} {o : List β}
    (h : f L x = .ok (L', o)) (xs : List α) : emittedOne f L (x :: xs) = o ++ emittedOne f L' xs := by
  simp [emittedOne, h]

theorem emittedTwo_ok {α β : Type} {f : Int → α → α → Except ECode (Int × List β)} {L L' : Int} {x y : α} {o : List β}
    (h : f L x y = .ok (L', o)) (xs : List α) : emittedTwo f L (x :: y :: xs) = o ++ emittedTwo f L' xs := by
  simp [emittedTwo, h]

/-! ### A successful fold's output is what its units emitted (R162) -/

theorem foldOne_emitted {α β : Type} {f : Int → α → Except ECode (Int × List β)} {xs : List α} {L : Int} {o : List β}
    (h : foldOne f L xs = .ok o) : o = emittedOne f L xs := by
  induction xs generalizing L o with
  | nil => cases h; rfl
  | cons x xs ih =>
    cases he : f L x with
    | error e => rw [foldOne_error he] at h; cases h
    | ok r =>
      obtain ⟨L', o'⟩ := r
      rw [foldOne_ok he] at h
      rw [emittedOne_ok he]
      cases hr : foldOne f L' xs with
      | error e => rw [hr] at h; cases h
      | ok q => rw [hr] at h; cases h; rw [ih hr]

theorem foldTwo_emitted {α β : Type} {f : Int → α → α → Except ECode (Int × List β)} {dangling : Option ECode}
    {xs : List α} {L : Int} {o : List β} (h : foldTwo f dangling L xs = .ok o) : o = emittedTwo f L xs := by
  induction xs using List.twoStepInduction generalizing L o with
  | nil => cases h; rfl
  | singleton x => cases dangling <;> cases h; rfl
  | cons_cons x y xs ih =>
    cases he : f L x y with
    | error e => rw [foldTwo_error he] at h; cases h
    | ok r =>
      obtain ⟨L', o'⟩ := r
      rw [foldTwo_ok he] at h
      rw [emittedTwo_ok he]
      cases hr : foldTwo f dangling L' xs with
      | error e => rw [hr] at h; cases h
      | ok q => rw [hr] at h; cases h; rw [ih hr]

/-- A successful call's output is what its units emitted, whatever its codec's unit size. -/
theorem fold_emitted {α β : Type} {u : UnitFn α β} {dangling : Option ECode} {xs : List α} {L : Int} {o : List β}
    (h : u.fold dangling L xs = .ok o) : o = u.emitted L xs := by
  cases u with
  | one f => exact foldOne_emitted h
  | two f => exact foldTwo_emitted h

end Sys2Proof.Machine
end

