-- ==== Sys2Proof/Laws/Codes.lean ====
section
/-! SUPPORT. Lanes, levels, bits and scheme codes: conversions are inverse where the spec says so; the fields of a concatenated
result word. -/

namespace Sys2Proof.Machine

/-- R7: every lane is the two's complement of the integer it reads as. -/
@[simp] theorem tc3_sext3 (x : Lane) : tc3 (sext3 x) = x := by revert x; decide

/-- R5: a lane reads as −4..3. -/
theorem sext3_bounds (x : Lane) : -4 ≤ sext3 x ∧ sext3 x ≤ 3 := by revert x; decide

/-- R7: the two's complement of an integer in −4..3 reads back as it. -/
theorem sext3_tc3 (v : Int) (h : -4 ≤ v ∧ v ≤ 3) : sext3 (tc3 v) = v := by
  obtain ⟨h1, h2⟩ := h
  have : v = -4 ∨ v = -3 ∨ v = -2 ∨ v = -1 ∨ v = 0 ∨ v = 1 ∨ v = 2 ∨ v = 3 := by omega
  rcases this with rfl | rfl | rfl | rfl | rfl | rfl | rfl | rfl <;> decide

/-- R7: lanes are told apart by the integers they read as. -/
theorem sext3_inj {x y : Lane} : sext3 x = sext3 y ↔ x = y :=
  ⟨fun h => by rw [← tc3_sext3 x, h, tc3_sext3], fun h => h ▸ rfl⟩

@[simp] theorem bitOfLane_bitLane (b : Bit) : bitOfLane (bitLane b) = b := by cases b <;> decide

@[simp] theorem isMalformedBit_bitLane (b : Bit) : isMalformedBit (bitLane b) = false := by cases b <;> decide

/-- R76: a lane that is not malformed is the operand of a bit. -/
theorem eq_bitLane_of_wellFormed {x : Lane} (h : isMalformedBit x = false) : x = bitLane (bitOfLane x) := by
  revert x; decide

/-- R76: a lane is malformed exactly when it is 2..7. -/
theorem isMalformedBit_iff (x : Lane) : isMalformedBit x = true ↔ 2 ≤ x.toNat := by
  unfold isMalformedBit zext3
  exact decide_eq_true_iff

/-- R75: the code of a scheme names it. -/
@[simp] theorem schemeOfCode_code (S : Scheme) : schemeOfCode S.code = some S := by cases S <;> decide

/-- R75: a code that names a scheme is its code. -/
theorem code_of_schemeOfCode {c : SchemeCode} {S : Scheme} (h : schemeOfCode c = some S) : c = S.code := by
  revert c S
  have : ∀ c : SchemeCode, ∀ S ∈ schemeOfCode c, c = S.code := by decide
  exact fun {c S} h => this c S h

/-- R75: 0 and 10..15 name no scheme, and only they. -/
theorem schemeOfCode_eq_none_iff (c : SchemeCode) : schemeOfCode c = none ↔ c.toNat = 0 ∨ 10 ≤ c.toNat := by
  revert c; decide

/-- R54 and R96 agree: an encoder's shape is its unit size. -/
theorem encoder_shape (S : Scheme) :
    (unitIn .enc S = 1 ∧ ∃ f, encoder S = .one f) ∨ (unitIn .enc S = 2 ∧ ∃ f, encoder S = .two f) := by
  cases S <;> simp [unitIn, encoder]

/-- R54 and R96 agree: a decoder's shape is its unit size. -/
theorem decoder_shape (S : Scheme) :
    (unitIn .dec S = 1 ∧ ∃ f, decoder S = .one f) ∨ (unitIn .dec S = 2 ∧ ∃ f, decoder S = .two f) := by
  cases S <;> simp [unitIn, decoder]

/-- The five fields of R71, joined most significant first, are read back at their places. -/
theorem resultFields_extract (n : BitVec 2) (a b : Lane) (st : BitVec 2) (e : BitVec 3) :
    (n ++ a ++ b ++ st ++ e).extractLsb' 11 2 = n ∧ (n ++ a ++ b ++ st ++ e).extractLsb' 8 3 = a ∧
    (n ++ a ++ b ++ st ++ e).extractLsb' 5 3 = b ∧ (n ++ a ++ b ++ st ++ e).extractLsb' 3 2 = st ∧
    (n ++ a ++ b ++ st ++ e).extractLsb' 0 3 = e := by
  refine ⟨?_, ?_, ?_, ?_, ?_⟩ <;> apply BitVec.eq_of_getLsbD_eq <;> intro i hi <;> interval_cases i <;>
    simp only [BitVec.getLsbD_extractLsb', BitVec.getLsbD_append] <;> rfl

end Sys2Proof.Machine
end

