-- ==== Sys2Proof/Laws/State.lean ====
section
/-! SUPPORT. One lemma per field per register update, so that no proof unfolds a record update. -/

namespace Sys2Proof.Machine

/-- The carried level a call starts with, on its lane (R33). -/
theorem tc3_initialLevel : tc3 Config.initialLevel = 1#3 := by decide

/-! ### quiet -/

@[simp] theorem State.quiet_level (s : State) : (s.quiet).level = s.level := rfl
@[simp] theorem State.quiet_hold (s : State) : (s.quiet).hold = s.hold := rfl
@[simp] theorem State.quiet_phase (s : State) : (s.quiet).phase = s.phase := rfl
@[simp] theorem State.quiet_dir (s : State) : (s.quiet).dir = s.dir := rfl
@[simp] theorem State.quiet_scheme (s : State) : (s.quiet).scheme = s.scheme := rfl
@[simp] theorem State.quiet_st (s : State) : (s.quiet).st = s.st := rfl
@[simp] theorem State.quiet_ecode (s : State) : (s.quiet).ecode = s.ecode := rfl
@[simp] theorem State.quiet_out (s : State) : (s.quiet).out = [] := rfl
@[simp] theorem State.quiet_policy (s : State) : (s.quiet).policy = s.policy := rfl
@[simp] theorem State.quiet_pending (s : State) : (s.quiet).pending = s.pending := rfl
@[simp] theorem State.quiet_freeIndex (s : State) : (s.quiet).freeIndex = s.freeIndex := rfl

/-! ### raised -/

@[simp] theorem State.raised_level (s : State) (e : ECode) : (s.raised e).level = s.level := rfl
@[simp] theorem State.raised_hold (s : State) (e : ECode) : (s.raised e).hold = s.hold := rfl
@[simp] theorem State.raised_phase (s : State) (e : ECode) : (s.raised e).phase = s.phase := rfl
@[simp] theorem State.raised_dir (s : State) (e : ECode) : (s.raised e).dir = s.dir := rfl
@[simp] theorem State.raised_scheme (s : State) (e : ECode) : (s.raised e).scheme = s.scheme := rfl
@[simp] theorem State.raised_st (s : State) (e : ECode) : (s.raised e).st = .err := rfl
@[simp] theorem State.raised_ecode (s : State) (e : ECode) : (s.raised e).ecode = e := rfl
@[simp] theorem State.raised_out (s : State) (e : ECode) : (s.raised e).out = [] := rfl
@[simp] theorem State.raised_policy (s : State) (e : ECode) : (s.raised e).policy = s.policy := rfl
@[simp] theorem State.raised_pending (s : State) (e : ECode) : (s.raised e).pending = s.pending := rfl
@[simp] theorem State.raised_freeIndex (s : State) (e : ECode) : (s.raised e).freeIndex = s.freeIndex := rfl

/-! ### initialised -/

@[simp] theorem State.initialised_level (s : State) (d : Dir) (c : SchemeCode) : (s.initialised d c).level = 1#3 := tc3_initialLevel
@[simp] theorem State.initialised_hold (s : State) (d : Dir) (c : SchemeCode) : (s.initialised d c).hold = s.hold := rfl
@[simp] theorem State.initialised_phase (s : State) (d : Dir) (c : SchemeCode) : (s.initialised d c).phase = false := rfl
@[simp] theorem State.initialised_dir (s : State) (d : Dir) (c : SchemeCode) : (s.initialised d c).dir = d := rfl
@[simp] theorem State.initialised_scheme (s : State) (d : Dir) (c : SchemeCode) : (s.initialised d c).scheme = c := rfl
@[simp] theorem State.initialised_st (s : State) (d : Dir) (c : SchemeCode) : (s.initialised d c).st = s.st := rfl
@[simp] theorem State.initialised_ecode (s : State) (d : Dir) (c : SchemeCode) : (s.initialised d c).ecode = s.ecode := rfl
@[simp] theorem State.initialised_out (s : State) (d : Dir) (c : SchemeCode) : (s.initialised d c).out = s.out := rfl
@[simp] theorem State.initialised_policy (s : State) (d : Dir) (c : SchemeCode) : (s.initialised d c).policy = s.policy := rfl
@[simp] theorem State.initialised_pending (s : State) (d : Dir) (c : SchemeCode) : (s.initialised d c).pending = s.pending := rfl
@[simp] theorem State.initialised_freeIndex (s : State) (d : Dir) (c : SchemeCode) : (s.initialised d c).freeIndex = s.freeIndex := rfl

/-! ### started -/

@[simp] theorem State.started_level (s : State) (d : Dir) (c : SchemeCode) : (s.started d c).level = 1#3 := tc3_initialLevel
@[simp] theorem State.started_hold (s : State) (d : Dir) (c : SchemeCode) : (s.started d c).hold = s.hold := rfl
@[simp] theorem State.started_phase (s : State) (d : Dir) (c : SchemeCode) : (s.started d c).phase = false := rfl
@[simp] theorem State.started_dir (s : State) (d : Dir) (c : SchemeCode) : (s.started d c).dir = d := rfl
@[simp] theorem State.started_scheme (s : State) (d : Dir) (c : SchemeCode) : (s.started d c).scheme = c := rfl
@[simp] theorem State.started_st (s : State) (d : Dir) (c : SchemeCode) : (s.started d c).st = .run := rfl
@[simp] theorem State.started_ecode (s : State) (d : Dir) (c : SchemeCode) : (s.started d c).ecode = .eNone := rfl
@[simp] theorem State.started_out (s : State) (d : Dir) (c : SchemeCode) : (s.started d c).out = [] := rfl
@[simp] theorem State.started_policy (s : State) (d : Dir) (c : SchemeCode) : (s.started d c).policy = s.policy := rfl
@[simp] theorem State.started_pending (s : State) (d : Dir) (c : SchemeCode) : (s.started d c).pending = s.pending := rfl
@[simp] theorem State.started_freeIndex (s : State) (d : Dir) (c : SchemeCode) : (s.started d c).freeIndex = s.freeIndex := rfl

/-! ### held -/

@[simp] theorem State.held_level (s : State) (x : Lane) : (s.held x).level = s.level := rfl
@[simp] theorem State.held_hold (s : State) (x : Lane) : (s.held x).hold = x := rfl
@[simp] theorem State.held_phase (s : State) (x : Lane) : (s.held x).phase = true := rfl
@[simp] theorem State.held_dir (s : State) (x : Lane) : (s.held x).dir = s.dir := rfl
@[simp] theorem State.held_scheme (s : State) (x : Lane) : (s.held x).scheme = s.scheme := rfl
@[simp] theorem State.held_st (s : State) (x : Lane) : (s.held x).st = s.st := rfl
@[simp] theorem State.held_ecode (s : State) (x : Lane) : (s.held x).ecode = s.ecode := rfl
@[simp] theorem State.held_out (s : State) (x : Lane) : (s.held x).out = [] := rfl
@[simp] theorem State.held_policy (s : State) (x : Lane) : (s.held x).policy = s.policy := rfl
@[simp] theorem State.held_pending (s : State) (x : Lane) : (s.held x).pending = s.pending := rfl
@[simp] theorem State.held_freeIndex (s : State) (x : Lane) : (s.held x).freeIndex = s.freeIndex := rfl

/-! ### completed -/

@[simp] theorem State.completed_level (s : State) (L : Int) (o : List Element) : (s.completed L o).level = tc3 L := rfl
@[simp] theorem State.completed_hold (s : State) (L : Int) (o : List Element) : (s.completed L o).hold = s.hold := rfl
@[simp] theorem State.completed_phase (s : State) (L : Int) (o : List Element) : (s.completed L o).phase = false := rfl
@[simp] theorem State.completed_dir (s : State) (L : Int) (o : List Element) : (s.completed L o).dir = s.dir := rfl
@[simp] theorem State.completed_scheme (s : State) (L : Int) (o : List Element) : (s.completed L o).scheme = s.scheme := rfl
@[simp] theorem State.completed_st (s : State) (L : Int) (o : List Element) : (s.completed L o).st = s.st := rfl
@[simp] theorem State.completed_ecode (s : State) (L : Int) (o : List Element) : (s.completed L o).ecode = s.ecode := rfl
@[simp] theorem State.completed_out (s : State) (L : Int) (o : List Element) : (s.completed L o).out = o := rfl
@[simp] theorem State.completed_policy (s : State) (L : Int) (o : List Element) : (s.completed L o).policy = s.policy := rfl
@[simp] theorem State.completed_pending (s : State) (L : Int) (o : List Element) : (s.completed L o).pending = s.pending := rfl
@[simp] theorem State.completed_freeIndex (s : State) (L : Int) (o : List Element) : (s.completed L o).freeIndex = s.freeIndex := rfl

/-! ### ended -/

@[simp] theorem State.ended_level (s : State) : (s.ended).level = s.level := rfl
@[simp] theorem State.ended_hold (s : State) : (s.ended).hold = s.hold := rfl
@[simp] theorem State.ended_phase (s : State) : (s.ended).phase = s.phase := rfl
@[simp] theorem State.ended_dir (s : State) : (s.ended).dir = s.dir := rfl
@[simp] theorem State.ended_scheme (s : State) : (s.ended).scheme = s.scheme := rfl
@[simp] theorem State.ended_st (s : State) : (s.ended).st = .done := rfl
@[simp] theorem State.ended_ecode (s : State) : (s.ended).ecode = s.ecode := rfl
@[simp] theorem State.ended_out (s : State) : (s.ended).out = [] := rfl
@[simp] theorem State.ended_policy (s : State) : (s.ended).policy = s.policy := rfl
@[simp] theorem State.ended_pending (s : State) : (s.ended).pending = s.pending := rfl
@[simp] theorem State.ended_freeIndex (s : State) : (s.ended).freeIndex = s.freeIndex := rfl

/-! ### dropped -/

@[simp] theorem State.dropped_level (s : State) : (s.dropped).level = s.level := rfl
@[simp] theorem State.dropped_hold (s : State) : (s.dropped).hold = s.hold := rfl
@[simp] theorem State.dropped_phase (s : State) : (s.dropped).phase = false := rfl
@[simp] theorem State.dropped_dir (s : State) : (s.dropped).dir = s.dir := rfl
@[simp] theorem State.dropped_scheme (s : State) : (s.dropped).scheme = s.scheme := rfl
@[simp] theorem State.dropped_st (s : State) : (s.dropped).st = .done := rfl
@[simp] theorem State.dropped_ecode (s : State) : (s.dropped).ecode = s.ecode := rfl
@[simp] theorem State.dropped_out (s : State) : (s.dropped).out = [] := rfl
@[simp] theorem State.dropped_policy (s : State) : (s.dropped).policy = s.policy := rfl
@[simp] theorem State.dropped_pending (s : State) : (s.dropped).pending = s.pending := rfl
@[simp] theorem State.dropped_freeIndex (s : State) : (s.dropped).freeIndex = s.freeIndex := rfl

/-! ### pinReset -/

@[simp] theorem State.pinReset_level (s : State) : (s.pinReset).level = 1#3 := rfl
@[simp] theorem State.pinReset_hold (s : State) : (s.pinReset).hold = Config.freeHold s.freeIndex := rfl
@[simp] theorem State.pinReset_phase (s : State) : (s.pinReset).phase = false := rfl
@[simp] theorem State.pinReset_dir (s : State) : (s.pinReset).dir = .enc := rfl
@[simp] theorem State.pinReset_scheme (s : State) : (s.pinReset).scheme = 0#4 := rfl
@[simp] theorem State.pinReset_st (s : State) : (s.pinReset).st = .idle := rfl
@[simp] theorem State.pinReset_ecode (s : State) : (s.pinReset).ecode = .eNone := rfl
@[simp] theorem State.pinReset_out (s : State) : (s.pinReset).out = [] := rfl
@[simp] theorem State.pinReset_policy (s : State) : (s.pinReset).policy = s.policy := rfl
@[simp] theorem State.pinReset_pending (s : State) : (s.pinReset).pending = s.pending := rfl
@[simp] theorem State.pinReset_freeIndex (s : State) : (s.pinReset).freeIndex = s.freeIndex + 1 := rfl

/-! ### present -/

@[simp] theorem State.present_level (s : State) (ps : List PortInput) : (s.present ps).level = s.level := rfl
@[simp] theorem State.present_hold (s : State) (ps : List PortInput) : (s.present ps).hold = s.hold := rfl
@[simp] theorem State.present_phase (s : State) (ps : List PortInput) : (s.present ps).phase = s.phase := rfl
@[simp] theorem State.present_dir (s : State) (ps : List PortInput) : (s.present ps).dir = s.dir := rfl
@[simp] theorem State.present_scheme (s : State) (ps : List PortInput) : (s.present ps).scheme = s.scheme := rfl
@[simp] theorem State.present_st (s : State) (ps : List PortInput) : (s.present ps).st = s.st := rfl
@[simp] theorem State.present_ecode (s : State) (ps : List PortInput) : (s.present ps).ecode = s.ecode := rfl
@[simp] theorem State.present_out (s : State) (ps : List PortInput) : (s.present ps).out = s.out := rfl
@[simp] theorem State.present_policy (s : State) (ps : List PortInput) : (s.present ps).policy = s.policy := rfl
@[simp] theorem State.present_pending (s : State) (ps : List PortInput) : (s.present ps).pending = ps ++ s.pending := rfl
@[simp] theorem State.present_freeIndex (s : State) (ps : List PortInput) : (s.present ps).freeIndex = s.freeIndex := rfl

end Sys2Proof.Machine
end

