-- ==== Sys2Proof/Laws/Ops.lean ====
section
/-! SUPPORT. What each shared operation, command and step can do, said once: the lemmas proofs cite instead of unfolding. -/

namespace Sys2Proof.Machine

/-- An ignored command on a state that records no emission changes nothing at all. -/
theorem State.quiet_of_out {s : State} (h : s.out = []) : s.quiet = s := by cases s; simp_all [State.quiet]

/-! ### START (R93) -/

theorem startCall_legal (d : Dir) (S : Scheme) (s : State) : startCall d S.code s = .next (s.started d S.code) := by
  simp [startCall]

theorem startCall_illegal (d : Dir) {c : SchemeCode} (h : schemeOfCode c = none) (s : State) :
    startCall d c s = .next ((s.initialised d c).raised .eSelect) := by
  simp [startCall, h, raiseError]

/-- The eighteen START instructions are START with their direction and code (R80). -/
theorem exec_startInstr (d : Dir) (S : Scheme) (s : State) : exec (startInstr d S) s = .next (s.started d S.code) := by
  cases d <;> cases S <;> rfl

theorem exec_nop (s : State) : exec .nop s = .next s.quiet := rfl

/-! ### PUSH (R94 to R96) -/

/-- Everything the end of a unit can do (R96). -/
theorem finishUnit_cases {β : Type} {wrap : β → Element} {r : Except ECode (Int × List β)} {s t : State}
    (h : finishUnit wrap r s = .next t) :
    (∃ L' o, r = .ok (L', o) ∧ t = s.completed L' (o.map wrap)) ∨ (∃ e, r = .error e ∧ t = s.raised e) := by
  cases r with
  | error e => exact .inr ⟨e, rfl, by simpa [finishUnit, raiseError] using h.symm⟩
  | ok p => exact .inl ⟨p.1, p.2, rfl, by simpa [finishUnit] using h.symm⟩

/-- The unit's end always gives a next state (R90). -/
theorem finishUnit_next {β : Type} (wrap : β → Element) (r : Except ECode (Int × List β)) (s : State) :
    ∃ t, finishUnit wrap r s = .next t := by
  rcases r with e | ⟨L', o⟩ <;> exact ⟨_, rfl⟩

/-- An accepted element always gives a next state (R90). -/
theorem acceptElement_next {α β : Type} (u : UnitFn α β) (read : Lane → α) (wrap : β → Element) (x : Lane) (s : State) :
    ∃ t, acceptElement u read wrap x s = .next t := by
  cases u with
  | one f => exact finishUnit_next ..
  | two f =>
    simp only [acceptElement]
    split
    · exact finishUnit_next ..
    · exact ⟨_, rfl⟩

theorem execPush_ignored {s : State} (h : s.st ≠ .run) (x : Lane) : exec (.push x) s = .next s.quiet := by
  simp [exec, execPush, h, ignoreCommand]

theorem execPush_badBit {s : State} (hr : s.st = .run) (hd : s.dir = .enc) {x : Lane} (hx : isMalformedBit x = true) :
    exec (.push x) s = .next (s.raised .eBadbit) := by
  simp [exec, execPush, hr, hd, acceptBit, hx, raiseError]

/-- In an ENC call a well-formed element goes to the encoder the latched code selects (R94, R98). -/
theorem execPush_enc {S : Scheme} {s : State} (h : InCall .enc S s) (b : Bit) :
    exec (.push (bitLane b)) s = acceptElement (encoder S) bitOfLane .level (bitLane b) s := by
  simp [exec, execPush, h.running, h.direction, acceptBit, h.selection]

/-- In a DEC call every element goes to the decoder the latched code selects (R94, R98). -/
theorem execPush_dec {S : Scheme} {s : State} (h : InCall .dec S s) (x : Lane) :
    exec (.push x) s = acceptElement (decoder S) sext3 .bit x s := by
  simp [exec, execPush, h.running, h.direction, acceptSample, h.selection]

/-- Everything a PUSH can do to the registers: it is ignored, fills HOLD, completes a unit, or raises. -/
theorem execPush_cases {x : Lane} {s t : State} (h : exec (.push x) s = .next t) :
    (s.st ≠ .run ∧ t = s.quiet) ∨
    (s.st = .run ∧ s.phase = false ∧ t = s.held x) ∨
    (s.st = .run ∧ ∃ L' o, t = s.completed L' o) ∨
    (s.st = .run ∧ ∃ e, t = s.raised e) := by
  by_cases hr : s.st = .run
  · have accept : ∀ {α β : Type} (u : UnitFn α β) (read : Lane → α) (wrap : β → Element),
        acceptElement u read wrap x s = .next t →
        (s.phase = false ∧ t = s.held x) ∨ (∃ L' o, t = s.completed L' o) ∨ (∃ e, t = s.raised e) := by
      intro α β u read wrap hu
      have finish : ∀ r : Except ECode (Int × List β), finishUnit wrap r s = .next t →
          (∃ L' o, t = s.completed L' o) ∨ (∃ e, t = s.raised e) := fun r hf => by
        rcases finishUnit_cases hf with ⟨L', o, _, rfl⟩ | ⟨e, _, rfl⟩
        · exact .inl ⟨_, _, rfl⟩
        · exact .inr ⟨_, rfl⟩
      cases u with
      | one f => exact .inr (finish _ hu)
      | two f =>
        simp only [acceptElement] at hu
        split at hu
        · exact .inr (finish _ hu)
        · exact .inl ⟨by simpa using ‹¬ s.phase = true›, by simpa using hu.symm⟩
    have done : (s.phase = false ∧ t = s.held x) ∨ (∃ L' o, t = s.completed L' o) ∨ (∃ e, t = s.raised e) := by
      simp only [exec, execPush, hr, if_true] at h
      cases hd : s.dir with
      | enc =>
        simp only [hd, acceptBit, raiseError] at h
        split at h
        · exact .inr (.inr ⟨_, by simpa using h.symm⟩)
        · split at h
          · exact accept _ _ _ h
          · simp at h
      | dec =>
        simp only [hd, acceptSample] at h
        split at h
        · exact accept _ _ _ h
        · simp at h
    rcases done with ⟨hp, rfl⟩ | h1 | h2
    · exact .inr (.inl ⟨hr, hp, rfl⟩)
    · exact .inr (.inr (.inl ⟨hr, h1⟩))
    · exact .inr (.inr (.inr ⟨hr, h2⟩))
  · rw [execPush_ignored hr] at h
    exact .inl ⟨hr, by simpa using h.symm⟩

/-! ### END (R97) -/

theorem execEnd_ignored {s : State} (h : s.st ≠ .run) : exec .endCall s = .next s.quiet := by
  simp [exec, execEndCall, h, ignoreCommand]

/-- Everything an END can do (R97). -/
theorem execEnd_cases (s : State) :
    (s.st ≠ .run ∧ exec .endCall s = .next s.quiet) ∨
    (s.st = .run ∧ s.phase = false ∧ exec .endCall s = .next s.ended) ∨
    (s.st = .run ∧ s.phase = true ∧ (s.dir = .dec ∨ s.policy = .reject) ∧ exec .endCall s = .next (s.raised .eOddlen)) ∨
    (s.st = .run ∧ s.phase = true ∧ s.dir = .enc ∧ s.policy = .truncate ∧ exec .endCall s = .next s.dropped) := by
  by_cases hr : s.st = .run
  · cases hp : s.phase <;> cases hd : s.dir <;> cases hq : s.policy <;>
      simp [exec, execEndCall, endDangling, raiseError, hr, hp, hd, hq]
  · exact .inl ⟨hr, execEnd_ignored hr⟩

/-! ### One presented input -/

theorem cycle_rst (p : PortInput) (h : p.rst = true) (s : State) : cycle p s = .next s.pinReset := by
  simp [cycle, h, execRst]

theorem cycle_instr (p : PortInput) {i : Instr} (h : p.rst = false) (hw : Sys2Proof.decode p.pv = .instr i) (s : State) :
    cycle p s = exec i s := by
  simp [cycle, h, hw]

theorem cycle_word {w : CommandWord} {i : Instr} (h : Sys2Proof.decode w = .instr i) (s : State) :
    cycle (.word w) s = exec i s := cycle_instr (.word w) rfl h s

theorem cycle_illegal (p : PortInput) {d : Dir} {c : SchemeCode} (h : p.rst = false)
    (hw : Sys2Proof.decode p.pv = .illegalSelection d c) (s : State) : cycle p s = startCall d c s := by
  simp [cycle, h, hw, execIllegalStart]

/-- The instructions are the four commands (R74). -/
theorem instr_cases (i : Instr) :
    i = .nop ∨ (∃ d S, i = startInstr d S) ∨ (∃ x, i = .push x) ∨ i = .endCall := by
  cases i with
  | nop => exact .inl rfl
  | push x => exact .inr (.inr (.inl ⟨x, rfl⟩))
  | endCall => exact .inr (.inr (.inr rfl))
  | startEncUni => exact .inr (.inl ⟨.enc, .uni, rfl⟩)
  | startEncNrzl => exact .inr (.inl ⟨.enc, .nrzl, rfl⟩)
  | startEncNrzi => exact .inr (.inl ⟨.enc, .nrzi, rfl⟩)
  | startEncRz => exact .inr (.inl ⟨.enc, .rz, rfl⟩)
  | startEncMan => exact .inr (.inl ⟨.enc, .man, rfl⟩)
  | startEncDman => exact .inr (.inl ⟨.enc, .dman, rfl⟩)
  | startEncAmi => exact .inr (.inl ⟨.enc, .ami, rfl⟩)
  | startEncPst => exact .inr (.inl ⟨.enc, .pst, rfl⟩)
  | startEnc2B1Q => exact .inr (.inl ⟨.enc, .twoB1Q, rfl⟩)
  | startDecUni => exact .inr (.inl ⟨.dec, .uni, rfl⟩)
  | startDecNrzl => exact .inr (.inl ⟨.dec, .nrzl, rfl⟩)
  | startDecNrzi => exact .inr (.inl ⟨.dec, .nrzi, rfl⟩)
  | startDecRz => exact .inr (.inl ⟨.dec, .rz, rfl⟩)
  | startDecMan => exact .inr (.inl ⟨.dec, .man, rfl⟩)
  | startDecDman => exact .inr (.inl ⟨.dec, .dman, rfl⟩)
  | startDecAmi => exact .inr (.inl ⟨.dec, .ami, rfl⟩)
  | startDecPst => exact .inr (.inl ⟨.dec, .pst, rfl⟩)
  | startDec2B1Q => exact .inr (.inl ⟨.dec, .twoB1Q, rfl⟩)

/-- A rejected word is a START word whose code names no scheme (R81). -/
theorem decode_illegal_spec {w : CommandWord} {d : Dir} {c : SchemeCode}
    (h : Sys2Proof.decode w = .illegalSelection d c) :
    cmdField w = 1#2 ∧ d = dirField w ∧ c = schemeField w ∧ schemeOfCode c = none := by
  unfold Sys2Proof.decode at h
  split at h
  · simp at h
  · split at h
    · simp at h
    · obtain ⟨rfl, rfl⟩ := Decoded.illegalSelection.inj h
      exact ⟨BitVec.eq_of_toNat_eq (by simpa using ‹(cmdField w).toNat = 1›), rfl, rfl, ‹_›⟩
  · simp at h
  · simp at h

/-- Everything the step on one presented input can be (R90): RST, one of the four commands, or an illegal START. -/
theorem cycle_cases (p : PortInput) (s : State) :
    (p.rst = true ∧ cycle p s = .next s.pinReset) ∨
    (p.rst = false ∧ Sys2Proof.decode p.pv = .instr .nop ∧ cycle p s = .next s.quiet) ∨
    (∃ d S, p.rst = false ∧ Sys2Proof.decode p.pv = .instr (startInstr d S) ∧ cycle p s = .next (s.started d S.code)) ∨
    (∃ x, p.rst = false ∧ Sys2Proof.decode p.pv = .instr (.push x) ∧ cycle p s = exec (.push x) s) ∨
    (p.rst = false ∧ Sys2Proof.decode p.pv = .instr .endCall ∧ cycle p s = exec .endCall s) ∨
    (∃ d c, p.rst = false ∧ Sys2Proof.decode p.pv = .illegalSelection d c ∧ schemeOfCode c = none ∧
      cycle p s = .next ((s.initialised d c).raised .eSelect)) := by
  cases hr : p.rst with
  | true => exact .inl ⟨rfl, cycle_rst p hr s⟩
  | false =>
    refine .inr ?_
    cases hd : Sys2Proof.decode p.pv with
    | instr i =>
      rcases instr_cases i with rfl | ⟨d, S, rfl⟩ | ⟨x, rfl⟩ | rfl
      · exact .inl ⟨rfl, rfl, cycle_instr p hr hd s⟩
      · exact .inr (.inl ⟨d, S, rfl, rfl, by rw [cycle_instr p hr hd, exec_startInstr]⟩)
      · exact .inr (.inr (.inl ⟨x, rfl, rfl, cycle_instr p hr hd s⟩))
      · exact .inr (.inr (.inr (.inl ⟨rfl, rfl, cycle_instr p hr hd s⟩)))
    | illegalSelection d c =>
      have hc := (decode_illegal_spec hd).2.2.2
      exact .inr (.inr (.inr (.inr ⟨d, c, rfl, rfl, hc, by rw [cycle_illegal p hr hd, startCall_illegal d hc]⟩)))

/-! ### The words of the four commands (R84) -/

/-- A START word is its row, or the rejection (R80, R81), whatever its ignored din holds. -/
theorem decode_startWord (d : Dir) (c : SchemeCode) (din : Lane) :
    Sys2Proof.decode (assembleWord 0b01#2 d c din) =
      (match schemeOfCode c with
        | some S => .instr (startInstr d S)
        | none => .illegalSelection d c) := by
  cases d <;> revert c din <;> decide

theorem decode_pushWord (x : Lane) : Sys2Proof.decode (pushWord x) = .instr (.push x) := by revert x; decide

theorem decode_endWord : Sys2Proof.decode endWord = .instr .endCall := by decide

theorem decode_nopWord : Sys2Proof.decode nopWord = .instr .nop := by decide

/-- The step on a START word with any code (R93). -/
theorem cycle_startWord (d : Dir) (c : SchemeCode) (din : Lane) (s : State) :
    cycle (.word (assembleWord 0b01#2 d c din)) s = startCall d c s := by
  have h := decode_startWord d c din
  cases hc : schemeOfCode c with
  | some S =>
    rw [hc] at h
    exact (cycle_word h s).trans (by rw [exec_startInstr, code_of_schemeOfCode hc, startCall_legal])
  | none =>
    rw [hc] at h
    exact cycle_illegal (.word (assembleWord 0b01#2 d c din)) rfl h s

/-- A word that decodes to a START row has `cmd` = 01 (R74). -/
theorem cmdField_of_start {w : CommandWord} {d : Dir} {S : Scheme} (h : Sys2Proof.decode w = .instr (startInstr d S)) :
    cmdField w = 1#2 := by
  unfold Sys2Proof.decode at h
  split at h
  · cases d <;> cases S <;> simp [startInstr] at h
  · exact BitVec.eq_of_toNat_eq (by simpa using ‹(cmdField w).toNat = 1›)
  · cases d <;> cases S <;> simp [startInstr] at h
  · cases d <;> cases S <;> simp [startInstr] at h

/-- Outside RUN every input but a START and RST is ignored (R92, R99). -/
theorem cycle_ignored {p : PortInput} (h : p.abandons = false) {s : State} (hr : s.st ≠ .run) :
    cycle p s = .next s.quiet := by
  have hp : p.rst = false ∧ cmdField p.pv ≠ 1#2 := by simpa [PortInput.abandons] using h
  rcases cycle_cases p s with ⟨h', _⟩ | ⟨_, _, h'⟩ | ⟨_, _, _, hd, _⟩ | ⟨x, _, _, h'⟩ | ⟨_, _, h'⟩ | ⟨_, _, _, hd, _, _⟩
  · simp [hp.1] at h'
  · exact h'
  · exact absurd (cmdField_of_start hd) hp.2
  · rw [h', execPush_ignored hr]
  · rw [h', execEnd_ignored hr]
  · exact absurd (decode_illegal_spec hd).1 hp.2

/-! ### The step -/

/-- Everything a step can be: nothing is presented, or the next input is taken (R26, R222). -/
theorem step_cases (s : State) :
    (s.pending = [] ∧ step s = .refused .noCommandPresented) ∨
    (∃ p ps, s.pending = p :: ps ∧ step s = cycle p { s with pending := ps }) := by
  unfold step fetch
  cases h : s.pending with
  | nil => exact .inl ⟨rfl, rfl⟩
  | cons p ps => exact .inr ⟨p, ps, rfl, rfl⟩

/-- A step on a presented stream takes its first input (R59). -/
theorem step_present (p : PortInput) (ps : List PortInput) (s : State) :
    step (s.present (p :: ps)) = cycle p (s.present ps) := rfl

@[simp] theorem State.present_nil (s : State) : s.present [] = s := rfl

/-- A word placed for the next step is run on the state as it was (R70). -/
theorem step_withFetchWord (s : State) (nbits w : Nat) :
    step (s.withFetchWord nbits w) = cycle (.word (BitVec.ofNat 10 w)) s := rfl

end Sys2Proof.Machine
end

