-- ==== Sys2Proof/Laws/PerInstr.lean ====
section
/-! SUPPORT. The per-instruction family RowMatch: the word the encoder gives an instruction selects that instruction's row of the
opcode map, and its row is one of the map's 21 (R80). -/

namespace Sys2Proof.Laws.RowMatch

/-- The encoder's word selects the instruction's own row, which stands in the table. -/
def Statement (i : Instr) : Prop := i.row.selects (encode i) = true ∧ i.row ∈ opcodeTable

theorem nop : Statement .nop := ⟨by decide, by decide⟩
theorem startEncUni : Statement .startEncUni := ⟨by decide, by decide⟩
theorem startEncNrzl : Statement .startEncNrzl := ⟨by decide, by decide⟩
theorem startEncNrzi : Statement .startEncNrzi := ⟨by decide, by decide⟩
theorem startEncRz : Statement .startEncRz := ⟨by decide, by decide⟩
theorem startEncMan : Statement .startEncMan := ⟨by decide, by decide⟩
theorem startEncDman : Statement .startEncDman := ⟨by decide, by decide⟩
theorem startEncAmi : Statement .startEncAmi := ⟨by decide, by decide⟩
theorem startEncPst : Statement .startEncPst := ⟨by decide, by decide⟩
theorem startEnc2B1Q : Statement .startEnc2B1Q := ⟨by decide, by decide⟩
theorem startDecUni : Statement .startDecUni := ⟨by decide, by decide⟩
theorem startDecNrzl : Statement .startDecNrzl := ⟨by decide, by decide⟩
theorem startDecNrzi : Statement .startDecNrzi := ⟨by decide, by decide⟩
theorem startDecRz : Statement .startDecRz := ⟨by decide, by decide⟩
theorem startDecMan : Statement .startDecMan := ⟨by decide, by decide⟩
theorem startDecDman : Statement .startDecDman := ⟨by decide, by decide⟩
theorem startDecAmi : Statement .startDecAmi := ⟨by decide, by decide⟩
theorem startDecPst : Statement .startDecPst := ⟨by decide, by decide⟩
theorem startDec2B1Q : Statement .startDec2B1Q := ⟨by decide, by decide⟩
theorem push (din : Lane) : Statement (.push din) := by
  refine ⟨?_, by simp [Instr.row, opcodeTable]⟩
  revert din
  decide
theorem endCall : Statement .endCall := ⟨by decide, by decide⟩

end Sys2Proof.Laws.RowMatch
end

