-- ==== Sys2Proof/Laws/Run.lean ====
section
/-! SUPPORT. What the engine's step does not depend on (the inputs still to come, the last emission, how a command's ignored bits
stand), the commands of an input stream, and the result of a call. -/

namespace Sys2Proof.Machine

/-- A change made to the next state, where there is one. -/
def mapNext (f : State → State) : Result → Result
  | .next t => .next (f t)
  | .fault r => .fault r
  | .refused r => .refused r

/-- The state with another stream of inputs to come. -/
def State.awaiting (q : List PortInput) (s : State) : State := { s with pending := q }

theorem finishUnit_awaiting {β : Type} (wrap : β → Element) (r : Except ECode (Int × List β)) (s : State)
    (q : List PortInput) (o : List Element) :
    finishUnit wrap r { s with pending := q, out := o } = mapNext (State.awaiting q) (finishUnit wrap r s) := by
  rcases r with e | ⟨L', o'⟩ <;> rfl

theorem acceptElement_awaiting {α β : Type} (u : UnitFn α β) (read : Lane → α) (wrap : β → Element) (x : Lane) (s : State)
    (q : List PortInput) (o : List Element) :
    acceptElement u read wrap x { s with pending := q, out := o } =
      mapNext (State.awaiting q) (acceptElement u read wrap x s) := by
  cases u with
  | one f => exact finishUnit_awaiting ..
  | two f =>
    simp only [acceptElement]
    split
    · exact finishUnit_awaiting wrap _ s q o
    · rfl

theorem execPush_awaiting (x : Lane) (s : State) (q : List PortInput) (o : List Element) :
    exec (.push x) { s with pending := q, out := o } = mapNext (State.awaiting q) (exec (.push x) s) := by
  simp only [exec, execPush]
  split
  · split
    · simp only [acceptBit]
      split
      · rfl
      · split
        · exact acceptElement_awaiting ..
        · rfl
    · simp only [acceptSample]
      split
      · exact acceptElement_awaiting ..
      · rfl
  · rfl

theorem execEnd_awaiting (s : State) (q : List PortInput) (o : List Element) :
    exec .endCall { s with pending := q, out := o } = mapNext (State.awaiting q) (exec .endCall s) := by
  simp only [exec, execEndCall]
  split
  · split
    · simp only [endDangling]
      split <;> rfl
    · rfl
  · rfl

/-- The step on one presented input reads neither the inputs to come nor the emission of the step before (R59, R90). -/
theorem cycle_awaiting (p : PortInput) (s : State) (q : List PortInput) (o : List Element) :
    cycle p { s with pending := q, out := o } = mapNext (State.awaiting q) (cycle p s) := by
  rcases cycle_cases p s with ⟨h, h'⟩ | ⟨h, hd, h'⟩ | ⟨d, S, h, hd, h'⟩ | ⟨x, h, hd, h'⟩ | ⟨h, hd, h'⟩ | ⟨d, c, h, hd, hc, h'⟩
  · rw [h', cycle_rst p h]; rfl
  · rw [h', cycle_instr p h hd]; rfl
  · rw [h', cycle_instr p h hd, exec_startInstr]; rfl
  · rw [h', cycle_instr p h hd]; exact execPush_awaiting ..
  · rw [h', cycle_instr p h hd]; exact execEnd_awaiting ..
  · rw [h', cycle_illegal p h hd, startCall_illegal d hc]; rfl

theorem execPush_pending {x : Lane} {s t : State} (h : exec (.push x) s = .next t) : t.pending = s.pending := by
  rcases execPush_cases h with ⟨_, rfl⟩ | ⟨_, _, rfl⟩ | ⟨_, _, _, rfl⟩ | ⟨_, _, rfl⟩ <;> simp

theorem execEnd_pending {s t : State} (h : exec .endCall s = .next t) : t.pending = s.pending := by
  rcases execEnd_cases s with ⟨_, h'⟩ | ⟨_, _, h'⟩ | ⟨_, _, _, h'⟩ | ⟨_, _, _, _, h'⟩ <;> rw [h'] at h <;> cases h <;> rfl

/-- The step on one presented input leaves the inputs to come alone. -/
theorem cycle_pending {p : PortInput} {s t : State} (h : cycle p s = .next t) : t.pending = s.pending := by
  rcases cycle_cases p s with ⟨_, h'⟩ | ⟨_, _, h'⟩ | ⟨d, S, _, _, h'⟩ | ⟨x, _, _, h'⟩ | ⟨_, _, h'⟩ | ⟨d, c, _, _, _, h'⟩ <;>
    rw [h'] at h
  · cases h; rfl
  · cases h; rfl
  · cases h; rfl
  · exact execPush_pending h
  · exact execEnd_pending h
  · cases h; rfl

/-- The emission of the step before is never read. -/
theorem cycle_out (p : PortInput) (s : State) (o : List Element) : cycle p { s with out := o } = cycle p s := by
  refine (cycle_awaiting p s s.pending o).trans ?_
  cases h : cycle p s with
  | next t => simp only [mapNext, State.awaiting, ← cycle_pending h]
  | fault r => rfl
  | refused r => rfl

/-- Two inputs that are the same command give the same step (R28, R70, R211). -/
theorem cycle_command {p q : PortInput} (h : p.command = q.command) (s : State) : cycle p s = cycle q s := by
  simp only [PortInput.command] at h
  cases hp : p.rst <;> cases hq : q.rst <;> simp only [hp, hq, if_true, if_false, Bool.false_eq_true, reduceCtorEq, Option.some.injEq] at h
  · simp [cycle, hp, hq, h]
  · simp [cycle, hp, hq]

/-- What an input is, from the command it is. -/
theorem decode_of_command {p : PortInput} {c : Decoded} (h : p.command = some c) :
    p.rst = false ∧ Sys2Proof.decode p.pv = c := by
  unfold PortInput.command at h
  split at h
  · cases h
  · exact ⟨by simpa using ‹¬ p.rst = true›, Option.some.inj h⟩

/-! ### Runs and their commands -/

theorem runInputs_cons {p : PortInput} {s t : State} (h : cycle p s = .next t) (ps : List PortInput) {u : State} {o : List Element}
    (hr : runInputs ps t = .next (u, o)) : runInputs (p :: ps) s = .next (u, t.out ++ o) := by
  simp [runInputs, h, hr]

theorem commandsOf_cons_nop {p : PortInput} (h : p.command = some (.instr .nop)) (ps : List PortInput) :
    commandsOf (p :: ps) = commandsOf ps := by
  simp [commandsOf, h]

theorem commandsOf_cons {p : PortInput} (h : p.command ≠ some (.instr .nop)) (ps : List PortInput) :
    commandsOf (p :: ps) = p.command :: commandsOf ps := by
  simp [commandsOf, h]

/-- An input that is a NOP (R92). -/
theorem cycle_nop {p : PortInput} (h : p.command = some (.instr .nop)) (s : State) : cycle p s = .next s.quiet :=
  cycle_instr p (decode_of_command h).1 (decode_of_command h).2 s

/-- The assembled words of a call are its commands (R83, R84). -/
theorem commandsOf_callInputs (d : Dir) (S : Scheme) (xs : List Lane) :
    commandsOf (callInputs d S xs) = callCommands d S xs := by
  have hs : PortInput.command (.word (startWord d S.code)) = some (.instr (startInstr d S)) := by
    cases d <;> cases S <;> decide
  have hx : ∀ x, PortInput.command (.word (pushWord x)) = some (.instr (.push x)) := by decide
  have he : PortInput.command (.word endWord) = some (.instr .endCall) := by decide
  have hn : startInstr d S ≠ .nop := by cases d <;> cases S <;> decide
  have hf : List.filter ((fun c => c != some (Decoded.instr Instr.nop)) ∘ PortInput.command ∘ PortInput.word ∘ pushWord) xs = xs := by
    rw [List.filter_eq_self]
    intro x _
    simp [hx]
  simp [callInputs, callCommands, commandsOf, hs, hx, he, hn, List.filter_map, hf]

/-! ### The result of a call (R102) -/

theorem State.callEnd_run (acc : List Element) {s : State} (h : s.st = .run) : s.callEnd acc = none := by
  simp [State.callEnd, h]

theorem State.callEnd_done (acc : List Element) {s : State} (h : s.st = .done) : s.callEnd acc = some (.succeeded acc) := by
  simp [State.callEnd, h]

theorem State.callEnd_err (acc : List Element) {s : State} (h : s.st = .err) : s.callEnd acc = some (.failed s.ecode) := by
  simp [State.callEnd, h]

/-- A call that has ended keeps its result, whatever inputs follow. -/
theorem followCall_ended {s : State} {acc : List Element} {r : CallResult} (h : s.callEnd acc = some r) (ps : List PortInput) :
    followCall ps s acc = r := by
  cases ps <;> simp [followCall, h]

/-- A START or RST in RUN abandons the call. -/
theorem followCall_abandoned {p : PortInput} (hp : p.abandons = true) {s : State} (hr : s.st = .run) (ps : List PortInput)
    (acc : List Element) : followCall (p :: ps) s acc = .abandoned := by
  simp [followCall, State.callEnd_run acc hr, hp]

/-- Any other input in RUN takes the call one step on. -/
theorem followCall_step {p : PortInput} (hp : p.abandons = false) {s t : State} (hr : s.st = .run) (h : cycle p s = .next t)
    (ps : List PortInput) (acc : List Element) : followCall (p :: ps) s acc = followCall ps t (acc ++ t.out) := by
  simp [followCall, State.callEnd_run acc hr, hp, h]

/-- A START begins the call whose result is asked for. -/
theorem callResult_start {p : PortInput} (hp : p.isStart = true) {s t : State} (h : cycle p s = .next t) (ps : List PortInput) :
    callResult (p :: ps) s = some (followCall ps t t.out) := by
  simp [callResult, hp, h]

/-- What comes before the first START is no part of the call. -/
theorem callResult_skip {p : PortInput} (hp : p.isStart = false) {s t : State} (h : cycle p s = .next t) (ps : List PortInput) :
    callResult (p :: ps) s = callResult ps t := by
  simp [callResult, hp, h]

end Sys2Proof.Machine
end

