-- ==== Sys2Proof/Tests/Slice0.lean ====
section
/-! SUPPORT. Small tests, their expected results read from the spec (the opcode map, the rules' examples, the vectors of
95_test_vectors.md), and for every obligation with hypotheses a concrete witness that meets them. -/

namespace Sys2Proof.Tests

open Sys2Proof Sys2Proof.Machine

/-- A running call. -/
def during (d : Dir) (S : Scheme) (level : Lane) (phase : Bool) (hold : Lane) : State :=
  { State.reset with st := .run, dir := d, scheme := S.code, level := level, phase := phase, hold := hold }

/-- The next state of a step, if it has one. -/
def nextOf (r : Result) : Option State :=
  match r with
  | .next t => some t
  | .fault _ => none
  | .refused _ => none

/-- What a PUSH emits. -/
def pushed (x : Lane) (s : State) : Option (List Element) := (nextOf (exec (.push x) s)).map State.out

/-- The ST and ECODE a command leaves. -/
def statusAfter (i : Instr) (s : State) : Option (St × ECode) := (nextOf (exec i s)).map fun t => (t.st, t.ecode)

/-- The result word a step leaves, its lanes that are not valid written as 0. -/
def resultAfter (i : Instr) (s : State) : Option Nat := (nextOf (exec i s)).map fun t => (t.resultWord 0#3 0#3).toNat

/-! ### Decoding: words written bit by bit as cmd, dir, scheme, din (R70, R80), ignored fields not zero -/

theorem test_decode_nop : decode 0b00_1_0101_101#10 = .instr .nop := by decide
theorem test_decode_startEncUni : decode 0b01_0_0001_111#10 = .instr .startEncUni := by decide
theorem test_decode_startEncNrzl : decode 0b01_0_0010_001#10 = .instr .startEncNrzl := by decide
theorem test_decode_startEncNrzi : decode 0b01_0_0011_010#10 = .instr .startEncNrzi := by decide
theorem test_decode_startEncRz : decode 0b01_0_0100_000#10 = .instr .startEncRz := by decide
theorem test_decode_startEncMan : decode 0b01_0_0101_000#10 = .instr .startEncMan := by decide
theorem test_decode_startEncDman : decode 0b01_0_0110_100#10 = .instr .startEncDman := by decide
theorem test_decode_startEncAmi : decode 0b01_0_0111_000#10 = .instr .startEncAmi := by decide
theorem test_decode_startEncPst : decode 0b01_0_1000_011#10 = .instr .startEncPst := by decide
theorem test_decode_startEnc2B1Q : decode 0b01_0_1001_000#10 = .instr .startEnc2B1Q := by decide
theorem test_decode_startDecUni : decode 0b01_1_0001_000#10 = .instr .startDecUni := by decide
theorem test_decode_startDecNrzl : decode 0b01_1_0010_000#10 = .instr .startDecNrzl := by decide
theorem test_decode_startDecNrzi : decode 0b01_1_0011_111#10 = .instr .startDecNrzi := by decide
theorem test_decode_startDecRz : decode 0b01_1_0100_000#10 = .instr .startDecRz := by decide
theorem test_decode_startDecMan : decode 0b01_1_0101_000#10 = .instr .startDecMan := by decide
theorem test_decode_startDecDman : decode 0b01_1_0110_000#10 = .instr .startDecDman := by decide
theorem test_decode_startDecAmi : decode 0b01_1_0111_000#10 = .instr .startDecAmi := by decide
theorem test_decode_startDecPst : decode 0b01_1_1000_000#10 = .instr .startDecPst := by decide
theorem test_decode_startDec2B1Q : decode 0b01_1_1001_000#10 = .instr .startDec2B1Q := by decide
theorem test_decode_push : decode 0b10_1_1111_101#10 = .instr (.push 0b101#3) := by decide
theorem test_decode_endCall : decode 0b11_0_1010_110#10 = .instr .endCall := by decide

/-- R81: scheme 0 and 10..15 are rejected by name, whatever din holds. -/
theorem test_decode_illegal_start :
    decode 0b01_0_0000_000#10 = .illegalSelection .enc 0#4 ∧ decode 0b01_1_1010_011#10 = .illegalSelection .dec 10#4 ∧
    decode 0b01_1_1100_000#10 = .illegalSelection .dec 12#4 ∧ decode 0b01_0_1111_000#10 = .illegalSelection .enc 15#4 := by
  decide

/-- The table numbers bits as the word does; no row has an illegal START word or a number of more than ten bits. -/
theorem test_decodeTableWord :
    decodeTableWord 16 0x1C8 = some .startDec2B1Q ∧ decodeTableWord 16 0x207 = some (.push 7#3) ∧
    decodeTableWord 16 0x300 = some .endCall ∧ decodeTableWord 16 0x100 = none ∧ decodeTableWord 16 0x400 = none := by
  decide

/-! ### Well-formedness and the assembler (R83, R84) -/

theorem test_wellFormed_refuses_code_16 : (Asm.startCode .enc 16).wellFormed = false ∧ (Asm.startCode .enc 16).words = none := by
  decide
theorem test_wellFormed_refuses_push_4 : (Asm.push 4).wellFormed = false ∧ (Asm.push 4).words = none := by decide
theorem test_wellFormed_refuses_push_minus_5 : (Asm.push (-5)).wellFormed = false ∧ (Asm.push (-5)).words = none := by decide
theorem test_wellFormed_refuses_bit_2 :
    (Asm.encode .uni ['0', '2']).wellFormed = false ∧ (Asm.encode .uni ['0', '2']).words = none := by decide
theorem test_wellFormed_refuses_level_4 :
    (Asm.decode .uni [1, 4]).wellFormed = false ∧ (Asm.decode .uni [1, 4]).words = none := by decide
theorem test_wellFormed_accepts_bounds :
    (Asm.startCode .dec 15).words = some [0b01_1_1111_000#10] ∧ (Asm.push (-4)).words = some [0x204#10] ∧
    (Asm.push 3).words = some [0x203#10] := by decide
/-- 95_test_vectors.md section 3, P1, steps 1 to 4 and 5 to 10. -/
theorem test_assemble_calls :
    (Asm.encode .man ['1', '0']).words = some [0x128#10, 0x201#10, 0x200#10, 0x300#10] ∧
    (Asm.decode .man [-1, 1, 1, -1]).words = some [0x1A8#10, 0x207#10, 0x201#10, 0x201#10, 0x207#10, 0x300#10] := by decide

/-! ### Reset (R33, R211) -/

/-- R33, column "after pin reset", seen through an RST step; HOLD is not looked at. -/
theorem test_rst_step :
    (nextOf (cycle ⟨true, 0x201#10⟩ (during .dec .ami 7#3 true 1#3))).map (fun t => (t.level, t.phase, t.dir, t.scheme)) =
      some (1#3, false, .enc, 0#4) ∧
    (nextOf (cycle ⟨true, 0x201#10⟩ (during .dec .ami 7#3 true 1#3))).map (fun t => (t.st, t.ecode, t.out)) =
      some (.idle, .eNone, []) := by decide

/-! ### Commands (R92 to R100) -/

/-- R92's example. -/
theorem test_nop_changes_nothing :
    nextOf (exec .nop (during .dec .man 1#3 true 7#3)) = some (during .dec .man 1#3 true 7#3) := by decide
/-- 95_test_vectors.md section 3, P5, steps 7 and 11: START in RUN puts LEVEL back to +1 and PHASE to 0. -/
theorem test_start_in_run :
    nextOf (exec .startEncNrzi (during .enc .nrzi 7#3 true 0#3)) = some (during .enc .nrzi 1#3 false 0#3) := by decide
/-- P5, steps 3 and 6. -/
theorem test_illegal_start :
    (nextOf (cycle (.word 0x100#10) State.reset)).map (fun t => (t.st, t.ecode, t.scheme)) = some (.err, .eSelect, 0#4) ∧
    (nextOf (cycle (.word 0x1E0#10) State.reset)).map (fun t => (t.dir, t.st, t.scheme)) = some (.dec, .err, 12#4) := by decide
/-- P5, steps 1 and 2: ignored in IDLE. -/
theorem test_push_end_ignored_in_idle :
    nextOf (exec (.push 1#3) State.reset) = some State.reset ∧ nextOf (exec .endCall State.reset) = some State.reset := by decide
/-- P5, step 13: 2 is no bit. -/
theorem test_push_bad_bit : statusAfter (.push 2#3) (during .enc .nrzi 1#3 false 0#3) = some (.err, .eBadbit) := by decide
/-- P3, step 9 under the two policies. -/
theorem test_end_dangling_bit :
    nextOf (exec .endCall (during .enc .twoB1Q 7#3 true 1#3)) =
      some { during .enc .twoB1Q 7#3 false 1#3 with st := .done } ∧
    statusAfter .endCall { during .enc .twoB1Q 7#3 true 1#3 with policy := .reject } = some (.err, .eOddlen) := by decide
/-- P6, step 5. -/
theorem test_end_dangling_sample : statusAfter .endCall (during .dec .man 1#3 true 7#3) = some (.err, .eOddlen) := by decide

/-! ### Codecs, one unit each (95_test_vectors.md section 2) -/

theorem test_enc_uni : pushed 1#3 (during .enc .uni 1#3 false 0#3) = some [.level 1] := by decide
theorem test_enc_nrzl : pushed 1#3 (during .enc .nrzl 1#3 false 0#3) = some [.level (-1)] := by decide
theorem test_enc_nrzi : pushed 1#3 (during .enc .nrzi 7#3 false 0#3) = some [.level 1] := by decide
theorem test_enc_rz : pushed 0#3 (during .enc .rz 1#3 false 0#3) = some [.level (-1), .level 0] := by decide
theorem test_enc_man : pushed 1#3 (during .enc .man 1#3 false 0#3) = some [.level (-1), .level 1] := by decide
theorem test_enc_dman : pushed 1#3 (during .enc .dman 7#3 false 0#3) = some [.level (-1), .level 1] := by decide
theorem test_enc_ami : pushed 1#3 (during .enc .ami 7#3 false 0#3) = some [.level (-1)] := by decide
theorem test_enc_pst : pushed 0#3 (during .enc .pst 7#3 false 0#3) = some [.level (-1)] := by decide
theorem test_enc_2b1q : pushed 1#3 (during .enc .twoB1Q 5#3 true 1#3) = some [.level 3] := by decide
theorem test_dec_uni : pushed 3#3 (during .dec .uni 1#3 false 0#3) = some [.bit false] := by decide
theorem test_dec_nrzl : pushed 7#3 (during .dec .nrzl 1#3 false 0#3) = some [.bit true] := by decide
theorem test_dec_nrzi :
    (nextOf (exec (.push 3#3) (during .dec .nrzi 0#3 false 0#3))).map (fun t => (t.level, t.out)) = some (3#3, [.bit true]) := by
  decide
theorem test_dec_rz : pushed 1#3 (during .dec .rz 1#3 true 1#3) = some [.bit true] := by decide
theorem test_dec_man : pushed 1#3 (during .dec .man 1#3 true 7#3) = some [.bit true] := by decide
theorem test_dec_man_invalid : statusAfter (.push 0#3) (during .dec .man 1#3 true 0#3) = some (.err, .eTransition) := by decide
theorem test_dec_dman :
    (nextOf (exec (.push 3#3) (during .dec .dman 7#3 true 7#3))).map (fun t => (t.level, t.out)) = some (3#3, [.bit true]) := by
  decide
theorem test_dec_ami :
    (nextOf (exec (.push 1#3) (during .dec .ami 1#3 false 0#3))).map (fun t => (t.level, t.out)) = some (7#3, [.bit true]) := by
  decide
theorem test_dec_pst : pushed 1#3 (during .dec .pst 1#3 false 0#3) = some [.bit false] := by decide
theorem test_dec_2b1q : pushed 5#3 (during .dec .twoB1Q 7#3 false 0#3) = some [.bit false, .bit true] := by decide

/-! ### Result words (95_test_vectors.md section 2.11) -/

theorem test_result_two_levels : resultAfter (.push 1#3) (during .enc .man 1#3 false 0#3) = some 0x1728 := by decide
theorem test_result_one_level : resultAfter (.push 1#3) (during .enc .twoB1Q 1#3 true 0#3) = some 0x0B08 := by decide
theorem test_result_negative_level : resultAfter (.push 1#3) (during .enc .twoB1Q 1#3 true 1#3) = some 0x0D08 := by decide
theorem test_result_two_bits : resultAfter (.push 3#3) (during .dec .twoB1Q 1#3 false 0#3) = some 0x1028 := by decide
theorem test_result_error : resultAfter (.push 7#3) (during .dec .ami 1#3 false 0#3) = some 0x001B := by decide
theorem test_result_done : resultAfter .endCall (during .dec .ami 1#3 false 0#3) = some 0x0010 := by decide

/-! ### Whole calls (95_test_vectors.md sections 1, 2 and 3) -/

/-- Section 2.4: `decode(RZ, [1,0,-1])` fails at END. -/
theorem test_decode_rz_odd : decodeCall .rz [1, 0, -1] = .error .eOddlen ∧ decodeEmitted .rz [1, 0, -1] = [true] := by decide
/-- Section 2.9: an odd bit string under both policies. -/
theorem test_encode_2b1q_odd :
    encodeCall .truncate .twoB1Q [false, false, false, true, true] = .ok [1, 3] ∧
    encodeCall .reject .twoB1Q [false, false, false, true, true] = .error .eOddlen := by decide
/-- P2, steps 1 to 8: the call fails at its fourth sample, whatever follows. -/
theorem test_failed_call :
    callResult ([0x1B8, 0x201, 0x207, 0x200, 0x207, 0x200, 0x300, 0x1B8].map fun w => .word (BitVec.ofNat 10 w)) State.reset =
      some (.failed .eSignal) := by decide
/-- P1, steps 1 to 4. -/
theorem test_successful_call :
    callResult ([0x128, 0x201, 0x200, 0x300].map fun w => .word (BitVec.ofNat 10 w)) State.reset =
      some (.succeeded [.level (-1), .level 1, .level 1, .level (-1)]) := by decide
/-- P5, steps 7 to 11: a START abandons the call. -/
theorem test_abandoned_call :
    callResult ([0x118, 0x201, 0x000, 0x200, 0x118].map fun w => .word (BitVec.ofNat 10 w)) State.reset = some .abandoned := by
  decide
/-- P5, steps 1 to 3 and on to 7: a START that raises E_SELECT is a failed call, with nothing after it and with a START after it. -/
theorem test_failed_start :
    callResult ([0x201, 0x300, 0x100].map fun w => .word (BitVec.ofNat 10 w)) State.reset = some (.failed .eSelect) ∧
    callResult ([0x1E0, 0x118].map fun w => .word (BitVec.ofNat 10 w)) State.reset = some (.failed .eSelect) := by decide
/-- R218: without END the call stays in RUN; P5, steps 1 and 2: without START there is no call. -/
theorem test_unended_call :
    callResult ([0x128, 0x201].map fun w => .word (BitVec.ofNat 10 w)) State.reset = some .running ∧
    callResult ([0x201, 0x300].map fun w => .word (BitVec.ofNat 10 w)) State.reset = none := by decide
/-- R50: 'A' is 01000001. -/
theorem test_byte_of_A : bytesOfBits [false, true, false, false, false, false, false, true] = some [0x41#8] := by decide

/-! ### The first step after reset -/

theorem test_first_step :
    (nextOf (step (State.reset.withFetchWord 16 0x1B8))).map (fun t => (t.st, t.dir, t.scheme, t.pending)) =
      some (.run, .dec, 7#4, []) := by decide

/-! ### Witnesses: for each obligation with hypotheses, data that meets them all together -/

/-- A call of any kind runs in some state (the unit statements, O20, O30 to O47), with any level, PHASE and HOLD. -/
theorem witness_inCall (d : Dir) (S : Scheme) (L : Lane) (ph : Bool) (h : Lane) : InCall d S (during d S L ph h) :=
  ⟨rfl, rfl, rfl⟩

/-- A state that keeps the invariant with a 2B1Q bit in HOLD. -/
theorem witness_inv_held : (during .enc .twoB1Q 5#3 true 1#3).Inv where
  noError := by decide
  selected := by
    intro S h
    obtain rfl : Scheme.twoB1Q = S := Option.some.inj h
    exact ⟨by decide, .inl (by decide), by decide, by decide, by decide, fun h => absurd rfl h⟩
  unselected := fun h => absurd h (by decide)

/-- A state that keeps the invariant after two levels were emitted. -/
theorem witness_inv_emitted : ({ during .enc .man 1#3 false 0#3 with out := [.level (-1), .level 1] } : State).Inv where
  noError := by decide
  selected := by
    intro S h
    obtain rfl : Scheme.man = S := Option.some.inj h
    refine ⟨by decide, (by decide : sext3 1#3 = 1), by decide, by decide, by decide, ?_⟩
    exact fun _ => ⟨rfl, rfl, by simp [mayEmit, alphabet, during]⟩
  unselected := fun h => absurd h (by decide)

/-- O1: the operands −4 and 3. -/
theorem witness_AssembledWords : ((-4 : Int) ≤ -4 ∧ (-4 : Int) ≤ 3) ∧ ((-4 : Int) ≤ 3 ∧ (3 : Int) ≤ 3) := by decide

/-- O3: a well-formed instruction, and a word with ignored bits set. -/
theorem witness_DecodeAndEncodeAgree :
    (Instr.push 7#3).wellFormed = true ∧ decode 0b10_1_1111_111#10 = .instr (.push 7#3) := by decide

/-- O5: a PUSH word with other dir and scheme bits, and its twin. -/
theorem witness_SelectionIsSampledByStartOnly :
    (∃ t, cycle (.word 0b10_1_0010_001#10) (during .enc .man 1#3 false 0#3) = .next t) ∧
    cmdField 0b10_1_0010_001#10 ≠ 1#2 ∧ cmdField 0b10_1_0010_001#10 = cmdField 0x201#10 ∧
    dinField 0b10_1_0010_001#10 = dinField 0x201#10 := ⟨⟨_, rfl⟩, by decide, by decide, by decide⟩

/-- O6: two START words that differ in din only, and two END words. -/
theorem witness_IgnoredFieldsHaveNoEffect :
    (cmdField 0x128#10 = cmdField 0x12F#10 ∧ dirField 0x128#10 = dirField 0x12F#10 ∧
      schemeField 0x128#10 = schemeField 0x12F#10 ∧ cmdField 0x128#10 ≠ 2#2) ∧
    (cmdField 0x300#10 = cmdField 0x3FF#10 ∧ cmdField 0x300#10 ≠ 1#2 ∧ cmdField 0x300#10 ≠ 2#2) := by decide

/-- O7: an RST step answers a next state. -/
theorem witness_PinResetStep :
    ∃ t, step ((during .dec .rz 1#3 true 1#3).present [⟨true, 0x3FF#10⟩]) = .next t := ⟨_, rfl⟩

/-- O9 and O10: a state of the invariant that completes a unit, the input being the last presented. -/
theorem witness_EveryStepKeepsTheInvariant :
    let s : State := { during .enc .twoB1Q 5#3 true 1#3 with pending := [.word 0x201#10] }
    s.Inv ∧ s.pending = .word 0x201#10 :: [] ∧ ∃ t, step s = .next t := by
  refine ⟨⟨by decide, ?_, fun h => absurd h (by decide)⟩, rfl, ⟨_, rfl⟩⟩
  intro S h
  obtain rfl : Scheme.twoB1Q = S := Option.some.inj h
  exact ⟨by decide, .inl (by decide), by decide, by decide, by decide, fun h => absurd rfl h⟩

/-- O11: a presented word that decodes to a well-formed instruction, the same through the table's numbering, and an empty stream. -/
theorem witness_StepRunsTheDecodedInstruction :
    (State.reset.present [.word 0x1B8#10]).pending = { rst := false, pv := 0x1B8#10 } :: [] ∧
    decode (BitVec.ofNat 10 0x1B8) = .instr .startDecAmi ∧ Instr.startDecAmi.wellFormed = true ∧
    State.reset.pending = [] := by decide

/-- O13: two streams with the same commands and different numbers of NOPs, one of which has run. -/
theorem witness_NopHasNoEffect :
    commandsOf [.word 0x118#10, .word 0x201#10] = commandsOf [.word 0x0FF#10, .word 0x118#10, .word 0x000#10, .word 0x201#10] ∧
    ∃ u o, runInputs [.word 0x118#10, .word 0x201#10] State.reset = .next (u, o) := ⟨by decide, ⟨_, _, rfl⟩⟩

/-- O16: the START step of the spec's example answers a next state. -/
theorem witness_StartWord : ∃ t, step (State.reset.present [.word 0x1B8#10]) = .next t := ⟨_, rfl⟩

/-- O17: the codes 0, 10 and 15, and inputs that abandon nothing. -/
theorem witness_IllegalSelection :
    ((0#4).toNat = 0 ∨ 10 ≤ (0#4).toNat) ∧ ((10#4).toNat = 0 ∨ 10 ≤ (10#4).toNat) ∧ ((15#4).toNat = 0 ∨ 10 ≤ (15#4).toNat) ∧
    ∀ p ∈ [PortInput.word 0x201#10, .word 0x300#10, .word 0x000#10], p.abandons = false := by decide

/-- O18: IDLE, DONE and ERR are not RUN. -/
theorem witness_PushAndEndOutsideRun :
    State.reset.st ≠ .run ∧ ({ State.reset with st := .done } : State).st ≠ .run ∧ ({ State.reset with st := .err } : State).st ≠ .run := by
  decide

/-- O19: an ENC call and the operands 2 and 7. -/
theorem witness_PushOfANonBit :
    (during .enc .rz 1#3 false 0#3).st = .run ∧ (during .enc .rz 1#3 false 0#3).dir = .enc ∧ 2 ≤ (2#3).toNat ∧ 2 ≤ (7#3).toNat := by
  decide

/-- O20: the four calls of unit size 2 with PHASE = 0, the ENC one with the bits 0 and 1. -/
theorem witness_FirstElementOfAPair :
    unitIn .enc .twoB1Q = 2 ∧ unitIn .dec .rz = 2 ∧ unitIn .dec .man = 2 ∧ unitIn .dec .dman = 2 ∧
    (during .enc .twoB1Q 1#3 false 0#3).phase = false ∧ (0#3).toNat ≤ 1 ∧ (1#3).toNat ≤ 1 := by decide

/-- O21: a PUSH that completes a 2B1Q pair in ENC, one that needs no pair, and what they emit. -/
theorem witness_StepEmitsOneUnitOrNothing :
    (PortInput.word 0x201#10).command = some (.instr (.push 1#3)) ∧
    (∃ t, cycle (.word 0x201#10) (during .enc .twoB1Q 1#3 true 0#3) = .next t ∧ t.out ≠ [] ∧ t.st = .run) ∧
    unitIn .enc .man = 1 ∧ (∃ t, cycle (.word 0x201#10) (during .enc .man 1#3 false 0#3) = .next t ∧ t.out ≠ [] ∧ t.st = .run) :=
  ⟨by decide, ⟨_, rfl, by decide, by decide⟩, by decide, ⟨_, rfl, by decide, by decide⟩⟩

/-- O22: one state for each clause on END. -/
theorem witness_EndOfACall :
    State.reset.st ≠ .run ∧
    ((during .enc .rz 1#3 false 0#3).st = .run ∧ (during .enc .rz 1#3 false 0#3).phase = false) ∧
    ((during .dec .rz 1#3 true 0#3).phase = true ∧ (during .dec .rz 1#3 true 0#3).dir = .dec) ∧
    ((during .enc .twoB1Q 1#3 true 0#3).phase = true ∧ (during .enc .twoB1Q 1#3 true 0#3).dir = .enc ∧
      (during .enc .twoB1Q 1#3 true 0#3).policy = .truncate) ∧
    ({ during .enc .twoB1Q 1#3 true 0#3 with policy := .reject } : State).policy = .reject ∧
    (during .enc .twoB1Q 5#3 true 1#3).Inv ∧ (during .enc .twoB1Q 5#3 true 1#3).st = .run :=
  ⟨by decide, by decide, by decide, by decide, by decide, witness_inv_held, rfl⟩

/-- O23: one input for each column of the table, each taken. -/
theorem witness_StatusTransitions :
    PortInput.reset.rst = true ∧ (PortInput.word 0x000#10).command = some (.instr .nop) ∧
    (PortInput.word 0x108#10).command = some (.instr (startInstr .enc .uni)) ∧
    (PortInput.word 0x1D0#10).command = some (.illegalSelection .dec 10#4) ∧
    (PortInput.word 0x204#10).command = some (.instr (.push 4#3)) ∧ (PortInput.word 0x300#10).command = some (.instr .endCall) ∧
    (∃ t, cycle (.word 0x204#10) (during .enc .uni 1#3 false 0#3) = .next t) ∧
    (∃ t, cycle (.word 0x300#10) (during .dec .rz 1#3 true 0#3) = .next t) :=
  ⟨by decide, by decide, by decide, by decide, by decide, by decide, ⟨_, rfl⟩, ⟨_, rfl⟩⟩

/-- O24: a PUSH that raises, and a START that raises. -/
theorem witness_RaiseWritesOnlyStatusAndCode :
    (∃ t, cycle (.word 0x202#10) (during .enc .uni 1#3 false 0#3) = .next t ∧ t.st = .err) ∧
    (during .enc .uni 1#3 false 0#3).st ≠ .err ∧ (PortInput.word 0x202#10).abandons = false ∧
    (∃ t, cycle (.word 0x100#10) State.reset = .next t ∧ t.st = .err) ∧ (PortInput.word 0x100#10).abandons = true :=
  ⟨⟨_, rfl, rfl⟩, by decide, by decide, ⟨_, rfl, rfl⟩, by decide⟩

/-- O25: a failed call and the commands after it. -/
theorem witness_ErrorIsSticky :
    ({ during .dec .man 1#3 true 0#3 with st := .err, ecode := .eTransition } : State).st = .err ∧
    ∀ p ∈ [PortInput.word 0x201#10, .word 0x300#10, .word 0x000#10], p.abandons = false := by decide

/-- O26: a state with PHASE = 0 and a PUSH that fills HOLD. -/
theorem witness_HoldIsReadOnlyWhilePhaseIsSet :
    (during .dec .rz 1#3 false 3#3).phase = false ∧
    ∃ t, cycle (.word 0x201#10) (during .dec .rz 1#3 false 3#3) = .next t ∧ t.phase = true := ⟨rfl, _, rfl, rfl⟩

/-- O27: two different pasts with one policy, and a call that has run. -/
theorem witness_CallsDoNotDependOnTheirPast :
    State.reset.policy = (during .dec .ami 7#3 true 5#3).policy ∧ cmdField 0x128#10 = 1#2 ∧
    ∃ u o, runInputs [.word 0x128#10, .word 0x201#10, .word 0x300#10] State.reset = .next (u, o) := ⟨rfl, by decide, _, _, rfl⟩

/-- O28: a PUSH that writes LEVEL and an END that raises. -/
theorem witness_PushAndEndFrame :
    (∃ t, exec (.push 1#3) (during .enc .ami 1#3 false 0#3) = .next t ∧ t.level ≠ 1#3) ∧
    (∃ t, exec .endCall (during .dec .dman 1#3 true 0#3) = .next t ∧ t.st = .err) :=
  ⟨⟨_, rfl, by decide⟩, ⟨_, rfl, rfl⟩⟩

/-- O29: emissions of one and two elements, a state of the invariant that has emitted two, and the levels −4 and 3. -/
theorem witness_ResultWordShowsTheEmission :
    ({ State.reset with out := [.bit true] } : State).out = .bit true :: [] ∧
    ({ State.reset with out := [.bit true, .bit false] } : State).out = .bit true :: .bit false :: [] ∧
    ({ during .enc .man 1#3 false 0#3 with out := [.level (-1), .level 1] } : State).Inv ∧
    ((-4 : Int) ≤ -4 ∧ (-4 : Int) ≤ 3) ∧ ((-4 : Int) ≤ 3 ∧ (3 : Int) ≤ 3) :=
  ⟨rfl, rfl, witness_inv_emitted, by decide, by decide⟩

/-- O32, O35 to O37 and O45: both carried levels. -/
theorem witness_carriedLevels :
    sext3 (during .enc .nrzi 1#3 false 0#3).level = 1 ∧ sext3 (during .enc .nrzi 7#3 false 0#3).level = -1 := by decide

/-- O38: a table entry with carried level −3, and the state it speaks of. -/
theorem witness_Enc2B1QUnit :
    let s := during .enc .twoB1Q 5#3 true (bitLane true)
    InCall .enc .twoB1Q s ∧ s.phase = true ∧ s.hold = bitLane true ∧ sext3 s.level = -3 :=
  ⟨⟨rfl, rfl, rfl⟩, rfl, rfl, by decide⟩

/-- O42 to O44: a DEC call of unit size 2 with its first sample held. -/
theorem witness_heldSample :
    InCall .dec .rz (during .dec .rz 1#3 true 1#3) ∧ InCall .dec .man (during .dec .man 1#3 true 7#3) ∧
    InCall .dec .dman (during .dec .dman 1#3 true 1#3) ∧ (during .dec .rz 1#3 true 1#3).phase = true :=
  ⟨⟨rfl, rfl, rfl⟩, ⟨rfl, rfl, rfl⟩, ⟨rfl, rfl, rfl⟩, rfl⟩

/-- O47: a table entry with carried level 3, and the four levels outside the alphabet. -/
theorem witness_Dec2B1QUnit :
    InCall .dec .twoB1Q (during .dec .twoB1Q 3#3 false 0#3) ∧ sext3 (during .dec .twoB1Q 3#3 false 0#3).level = 3 ∧
    sext3 0#3 = 0 ∧ sext3 2#3 = 2 ∧ sext3 6#3 = -2 ∧ sext3 4#3 = -4 := ⟨⟨rfl, rfl, rfl⟩, by decide⟩

/-- O48: the commands of an encode call with NOPs between them, its elements bits; and one with the malformed element 7 in it. -/
theorem witness_EncodeCall :
    commandsOf [.word 0x148#10, .word 0x000#10, .word 0x200#10, .word 0x201#10, .word 0x0FF#10, .word 0x300#10] =
      callCommands .enc .twoB1Q [0#3, 1#3] ∧
    (∀ x ∈ [0#3, 1#3], x.toNat ≤ 1) ∧ [1#3, 7#3, 0#3] = [1#3] ++ 7#3 :: [0#3] ∧ (∀ x ∈ [1#3], x.toNat ≤ 1) ∧ 2 ≤ (7#3).toNat := by
  decide

/-- O49: the commands of a decode call with its ignored fields set. -/
theorem witness_DecodeCall :
    commandsOf [.word 0b01_1_0101_110#10, .word 0b10_0_1111_111#10, .word 0x201#10, .word 0b11_0_0001_000#10] =
      callCommands .dec .man [7#3, 1#3] := by decide

/-- O50 and O57: even bit strings, an odd one, a state of each policy. -/
theorem witness_bitStrings :
    ([true, false] : List Bit).length % 2 = 0 ∧ ([true] : List Bit).length % 2 = 1 ∧
    ¬ (Scheme.twoB1Q = .twoB1Q ∧ ([true] : List Bit).length % 2 = 1 ∧ State.reset.policy = .reject) ∧
    ({ State.reset with policy := .reject } : State).policy = .reject := by decide

/-- O52 to O54, O57, O58: encodings and decodings that succeed, of both unit sizes, and an odd 2B1Q bit string. -/
theorem witness_successfulCalls :
    encodeCall .truncate .rz [true] = .ok [1, 0] ∧ encodeCall .reject .twoB1Q [true, true] = .ok [-3] ∧
    encodeCall .truncate .twoB1Q [true, true, false] = .ok [-3] ∧ encodeCall .truncate .ami [true, true] = .ok [1, -1] ∧
    decodeCall .man [-1, 1] = .ok [true] ∧ decodeCall .ami [1, -1] = .ok [true, true] ∧
    decodeCall .twoB1Q [-3] = .ok [true, true] ∧ ([1, 0] : List Int)[0]? = some 1 ∧ ([1, 0] : List Int)[1]? = some 0 := by
  decide

/-- O56: a signal of suitable length for a decoder that validates nothing. -/
theorem witness_InvalidSignals : ([4, -9] : List Int).length % unitIn .dec .dman = 0 ∧ ([] : List Int).length % unitIn .dec .rz = 0 := by
  decide

/-- O59: a call that fails at a unit, and one that fails at its dangling sample. -/
theorem witness_ErrorsHaveThePrefixProperty :
    decodeCall .man [-1, 1, 0, 0, 1, -1] = .error .eTransition ∧ decodeCall .dman [1, -1, 1] = .error .eOddlen := by decide

/-- O60: the first and the last bit of a byte. -/
theorem witness_BytesAndBits : ([0x41#8] : List (BitVec 8))[0]? = some 0x41#8 ∧ (0 < 8) ∧ (7 < 8) := by decide

end Sys2Proof.Tests
end

section
/-! DIR and SCHEME are sampled by START and by nothing else (R28). -/

namespace Sys2Proof.Machine

theorem execPush_selection {x : Lane} {s t : State} (h : exec (.push x) s = .next t) :
    t.dir = s.dir ∧ t.scheme = s.scheme := by
  rcases execPush_cases h with ⟨_, rfl⟩ | ⟨_, _, rfl⟩ | ⟨_, _, _, rfl⟩ | ⟨_, _, rfl⟩ <;> simp

theorem execEnd_selection {s t : State} (h : exec .endCall s = .next t) :
    t.dir = s.dir ∧ t.scheme = s.scheme := by
  rcases execEnd_cases s with ⟨_, h'⟩ | ⟨_, _, h'⟩ | ⟨_, _, _, h'⟩ | ⟨_, _, _, _, h'⟩ <;>
    obtain rfl := Host.Outcome.next.inj (h'.symm.trans h) <;> simp

/-- The selection registers are part of the frame of every input but START and RST (R28). -/
theorem cycle_selection {p : PortInput} {s t : State} (h : cycle p s = .next t) (hrst : p.rst = false)
    (hcmd : cmdField p.pv ≠ 1#2) : t.dir = s.dir ∧ t.scheme = s.scheme := by
  rcases cycle_cases p s with ⟨hr, _⟩ | ⟨_, _, h'⟩ | ⟨_, _, _, hd, _⟩ | ⟨_, _, _, h'⟩ | ⟨_, _, h'⟩ | ⟨_, _, _, hd, _⟩
  · exact absurd (hr.symm.trans hrst) (by decide)
  · obtain rfl := Host.Outcome.next.inj (h'.symm.trans h)
    exact ⟨s.quiet_dir, s.quiet_scheme⟩
  · exact absurd (cmdField_of_start hd) hcmd
  · exact execPush_selection (h'.symm.trans h)
  · exact execEnd_selection (h'.symm.trans h)
  · exact absurd (decode_illegal_spec hd).1 hcmd

/-- Of a word that is no START the decoder reads `cmd` and `din` only (R70). -/
theorem decode_eq_of_not_start {w w' : CommandWord} (hcmd : cmdField w = cmdField w') (hstart : cmdField w ≠ 1#2)
    (hdin : dinField w = dinField w') : Sys2Proof.decode w = Sys2Proof.decode w' := by
  have hne : (cmdField w').toNat ≠ 1 := fun h => hstart (hcmd.trans (BitVec.eq_of_toNat_eq h))
  unfold Sys2Proof.decode
  rw [hcmd, hdin]
  split
  · rfl
  · exact absurd ‹_› hne
  · rfl
  · rfl

/-- Settles O5: the frame of a step that is no START and no RST, and the decoder's blindness to the selector fields. -/
theorem selectionIsSampledByStartOnly : Obligations.SelectionIsSampledByStartOnly := by
  refine ⟨fun _ _ _ h hrst hcmd => cycle_selection h hrst hcmd, fun w w' s hcmd hstart hdin => ?_⟩
  have hcommand : (PortInput.word w).command = (PortInput.word w').command :=
    congrArg some (decode_eq_of_not_start hcmd hstart hdin)
  exact cycle_command hcommand s

end Sys2Proof.Machine
end

section
/-! The host's bytes and the engine's bits, most significant bit first (R50). -/

namespace Sys2Proof.Machine

@[simp] theorem bitsOfByte_length (b : BitVec 8) : (bitsOfByte b).length = 8 := rfl

theorem bitsOfByte_getElem? (b : BitVec 8) {j : Nat} (hj : j < 8) :
    (bitsOfByte b)[j]? = some (b.getLsbD (7 - j)) := by
  interval_cases j <;> rfl

@[simp] theorem bitsOfBytes_nil : bitsOfBytes [] = [] := rfl

@[simp] theorem bitsOfBytes_cons (b : BitVec 8) (bs : List (BitVec 8)) :
    bitsOfBytes (b :: bs) = bitsOfByte b ++ bitsOfBytes bs := List.flatMap_cons

@[simp] theorem bitsOfBytes_length (bs : List (BitVec 8)) : (bitsOfBytes bs).length = 8 * bs.length := by
  induction bs with
  | nil => rfl
  | cons b bs ih => simp [ih]; omega

/-- Byte `k` owns the bits `8k` to `8k+7`: an index past the head's eight bits reads the tail. -/
theorem bitsOfBytes_getElem? {bs : List (BitVec 8)} {k j : Nat} {b : BitVec 8} (hk : bs[k]? = some b) (hj : j < 8) :
    (bitsOfBytes bs)[8 * k + j]? = some (b.getLsbD (7 - j)) := by
  induction bs generalizing k with
  | nil => simp at hk
  | cons c bs ih =>
    rw [bitsOfBytes_cons]
    cases k with
    | zero =>
      obtain rfl : c = b := by simpa using hk
      rw [List.getElem?_append_left (by simp; omega), Nat.mul_zero, Nat.zero_add, bitsOfByte_getElem? c hj]
    | succ k =>
      have hindex : 8 * (k + 1) + j - (bitsOfByte c).length = 8 * k + j := by rw [bitsOfByte_length]; omega
      rw [List.getElem?_append_right (by rw [bitsOfByte_length]; omega), hindex, ih (by simpa using hk)]

/-- The weighted sum of R50 never exceeds 255, so the byte is the sum itself. -/
theorem byteOfBits_toNat (t0 t1 t2 t3 t4 t5 t6 t7 : Bit) :
    (byteOfBits t0 t1 t2 t3 t4 t5 t6 t7).toNat = t0.toNat * 128 + t1.toNat * 64 + t2.toNat * 32 + t3.toNat * 16 +
      t4.toNat * 8 + t5.toNat * 4 + t6.toNat * 2 + t7.toNat := by
  have h0 := t0.toNat_le; have h1 := t1.toNat_le; have h2 := t2.toNat_le; have h3 := t3.toNat_le
  have h4 := t4.toNat_le; have h5 := t5.toNat_le; have h6 := t6.toNat_le; have h7 := t7.toNat_le
  rw [byteOfBits, BitVec.toNat_ofNat, Nat.mod_eq_of_lt (by omega)]

/-- A byte is the weighted sum of its own bits. -/
theorem byteOfBits_getLsbD (b : BitVec 8) :
    byteOfBits (b.getLsbD 7) (b.getLsbD 6) (b.getLsbD 5) (b.getLsbD 4) (b.getLsbD 3) (b.getLsbD 2) (b.getLsbD 1)
      (b.getLsbD 0) = b := by
  have hbit (i : Nat) : (b.getLsbD i).toNat = b.toNat / 2 ^ i % 2 := Nat.toNat_testBit b.toNat i
  apply BitVec.eq_of_toNat_eq
  simp only [byteOfBits_toNat, hbit]
  omega

theorem bytesOfBits_bitsOfByte_append (b : BitVec 8) (rest : List Bit) :
    bytesOfBits (bitsOfByte b ++ rest) = (bytesOfBits rest).map (b :: ·) := by
  simp only [bitsOfByte, List.cons_append, List.nil_append, bytesOfBits, byteOfBits_getLsbD]

theorem bytesOfBits_bitsOfBytes (bs : List (BitVec 8)) : bytesOfBits (bitsOfBytes bs) = some bs := by
  induction bs with
  | nil => rfl
  | cons b bs ih => rw [bitsOfBytes_cons, bytesOfBits_bitsOfByte_append, ih, Option.map_some]

/-- Settles O60: the index of a bit, the eight bits a byte and the way back, each by induction on the bytes; the weights of R50. -/
theorem bytesAndBitsAreMostSignificantFirst : Obligations.BytesAndBitsAreMostSignificantFirst :=
  ⟨fun _ _ _ _ hk hj => bitsOfBytes_getElem? hk hj,
    fun bs => ⟨bitsOfBytes_length bs, bytesOfBits_bitsOfBytes bs⟩,
    fun t0 t1 t2 t3 t4 t5 t6 t7 => ⟨byteOfBits t0 t1 t2 t3 t4 t5 t6 t7, rfl, byteOfBits_toNat t0 t1 t2 t3 t4 t5 t6 t7⟩,
    by decide⟩

end Sys2Proof.Machine
end

section
/-! An assembled command word is its four fields side by side, most significant first (R84). -/

namespace Sys2Proof.Machine

/-- The shifts of R84 put the fields side by side: no two of them overlap. -/
theorem assembleWord_eq_append (cmd : BitVec 2) (d : Dir) (code : SchemeCode) (din : Lane) :
    assembleWord cmd d code din = cmd ++ d.code ++ code ++ din := by
  apply BitVec.eq_of_getLsbD_eq (w := 2 + 1 + 4 + 3)
  intro i hi
  rw [BitVec.getLsbD_append, BitVec.getLsbD_append, BitVec.getLsbD_append]
  interval_cases i <;> simp [assembleWord]

/-- Joining two vectors adds the upper one at the weight the lower one's width gives it. -/
theorem toNat_append_eq_add {m n : Nat} (x : BitVec m) (y : BitVec n) : (x ++ y).toNat = x.toNat * 2 ^ n + y.toNat := by
  rw [BitVec.toNat_append, ← Nat.shiftLeft_add_eq_or_of_lt y.isLt, Nat.shiftLeft_eq]

/-- The weights of the four fields of a command word (R84). -/
theorem assembleWord_toNat (cmd : BitVec 2) (d : Dir) (code : SchemeCode) (din : Lane) :
    (assembleWord cmd d code din).toNat = cmd.toNat * 256 + d.code.toNat * 128 + code.toNat * 8 + din.toNat := by
  rw [assembleWord_eq_append]
  simp only [toNat_append_eq_add]
  omega

/-- R7: in −4..3, `tc_3` is the two's complement, not the free value. -/
theorem tc3_of_bounds {n : Int} (h : -4 ≤ n ∧ n ≤ 3) : tc3 n = BitVec.ofInt 3 n := if_pos h

/-- PUSH of an integer a lane can carry is one word, with `tc_3` of the integer as its operand (R84). -/
theorem words_push {n : Int} (h : -4 ≤ n ∧ n ≤ 3) : (Asm.push n).words = some [pushWord (tc3 n)] := by
  have hwf : (Asm.push n).wellFormed = true := decide_eq_true h
  rw [tc3_of_bounds h, Asm.words, if_pos hwf]

/-- Settles O1: the layout of R84 field by field, PUSH by the range of its operand, and the ten words as R84 writes them. -/
theorem assembledWordsHaveTheSpecsLayout : Obligations.AssembledWordsHaveTheSpecsLayout :=
  ⟨assembleWord_toNat, fun _ hlo hhi => words_push ⟨hlo, hhi⟩, by decide⟩

end Sys2Proof.Machine
end

section
/-! The result word of a step: its fields, the status lines, and the elements on its lanes (R71, R25, R77). -/

namespace Sys2Proof.Machine

theorem State.out0_of_cons {s : State} {a : Element} {rest : List Element} (h : s.out = a :: rest) :
    s.out0 = some a.lane := by
  rw [State.out0, h]; rfl

theorem State.out1_of_cons_cons {s : State} {a b : Element} {rest : List Element} (h : s.out = a :: b :: rest) :
    s.out1 = some b.lane := by
  rw [State.out1, h]; rfl

/-- The fields of the result word read back at their places (R71). -/
theorem State.resultWord_fields (s : State) (x0 x1 : Lane) :
    (s.resultWord x0 x1).extractLsb' 11 2 = s.outN ∧ (s.resultWord x0 x1).extractLsb' 8 3 = s.out0.getD x0 ∧
    (s.resultWord x0 x1).extractLsb' 5 3 = s.out1.getD x1 ∧ (s.resultWord x0 x1).extractLsb' 3 2 = s.st.code ∧
    (s.resultWord x0 x1).extractLsb' 0 3 = s.ecode.code :=
  resultFields_extract _ _ _ _ _

/-- R78: the four status codes differ. -/
theorem St.code_inj {a b : St} : a.code = b.code ↔ a = b := by
  cases a <;> cases b <;> decide

/-- R25: `busy` is the status code 01. -/
theorem State.busy_iff (s : State) : s.busy = true ↔ s.st.code = 0b01#2 :=
  beq_iff_eq.trans (St.code_inj (b := .run)).symm

/-- R25: `done` is the status code 10. -/
theorem State.doneLine_iff (s : State) : s.doneLine = true ↔ s.st.code = 0b10#2 :=
  beq_iff_eq.trans (St.code_inj (b := .done)).symm

/-- R25: `err` is the status code 11. -/
theorem State.errLine_iff (s : State) : s.errLine = true ↔ s.st.code = 0b11#2 :=
  beq_iff_eq.trans (St.code_inj (b := .err)).symm

theorem unitOut_le_two (d : Dir) (S : Scheme) : unitOut d S ≤ 2 := by cases d <;> cases S <;> decide

/-- R54: no step of a run emits more than the output unit of its call, so `out_n` is never 3. -/
theorem State.Inv.out_length_le_two {s : State} (h : s.Inv) : s.out.length ≤ 2 := by
  cases hS : schemeOfCode s.scheme with
  | none => simp [(h.unselected hS).out]
  | some S =>
    by_cases hout : s.out = []
    · simp [hout]
    · obtain ⟨_, hlen, _⟩ := (h.selected S hS).emission hout
      exact hlen ▸ unitOut_le_two s.dir S

/-- Settles O29: the fields at their places, the status lines by the status code, the length of an emission by the invariant. -/
theorem resultWordShowsTheEmission : Obligations.ResultWordShowsTheEmission := by
  refine ⟨fun s x0 x1 => ?_, fun _ => State.Inv.out_length_le_two, fun v hlo hhi => sext3_tc3 v ⟨hlo, hhi⟩, fun _ => rfl⟩
  obtain ⟨houtN, hout0, hout1, hst, hecode⟩ := s.resultWord_fields x0 x1
  refine ⟨houtN, fun a rest h => ?_, fun a b rest h => ?_, hst, hecode, ?_, ?_, ?_⟩
  · rw [hout0, State.out0_of_cons h, Option.getD_some]
  · rw [hout1, State.out1_of_cons_cons h, Option.getD_some]
  · rw [hst, s.busy_iff]
  · rw [hst, s.doneLine_iff]
  · rw [hst, s.errLine_iff]

end Sys2Proof.Machine
end

section
/-! START, END and the commands that are ignored: the step of each command of a call on the registers (R93, R97, R99). -/

namespace Sys2Proof.Machine

/-- Settles O18: both commands leave the registers as they are. -/
theorem pushAndEndOutsideRunAreIgnored : Obligations.PushAndEndOutsideRunAreIgnored :=
  fun _ din hst => ⟨execPush_ignored hst din, execEnd_ignored hst⟩

/-- R75: the codes that name a scheme are 1..9. -/
theorem schemeOfCode_eq_some_iff (c : SchemeCode) : (∃ S, schemeOfCode c = some S) ↔ 1 ≤ c.toNat ∧ c.toNat ≤ 9 := by
  rw [← Option.ne_none_iff_exists', ne_eq, schemeOfCode_eq_none_iff]
  omega

/-- What a START with any code writes, register by register (R93). -/
theorem startCall_writes (d : Dir) (code : SchemeCode) (s : State) :
    startCall d code s = .next
      (if 1 ≤ code.toNat ∧ code.toNat ≤ 9 then
        { s with
          dir := d, scheme := code, level := 1#3, phase := false, st := .run, ecode := .eNone, out := [] }
      else
        { s with
          dir := d, scheme := code, level := 1#3, phase := false, st := .err, ecode := .eSelect, out := [] }) := by
  have hlegal := schemeOfCode_eq_some_iff code
  cases hS : schemeOfCode code with
  | some S =>
    obtain rfl := code_of_schemeOfCode hS
    rw [startCall_legal, if_pos (hlegal.mp ⟨S, hS⟩), State.started, State.initialised, tc3_initialLevel]
  | none =>
    have hillegal : ¬(1 ≤ code.toNat ∧ code.toNat ≤ 9) := fun h => by simpa [hS] using hlegal.mpr h
    rw [startCall_illegal d hS, if_neg hillegal, State.raised, State.initialised, tc3_initialLevel]

/-- Settles O16: the step on a START word is `startCall`, whose writes do not depend on din; the example is one of its words. -/
theorem startWordBeginsACallOrRaisesSelect : Obligations.StartWordBeginsACallOrRaisesSelect := by
  have hstep : ∀ s d code din, step (State.present [.word (assembleWord 0b01#2 d code din)] s) = startCall d code s :=
    fun s d code din => (step_present _ [] s).trans (cycle_startWord d code din s)
  refine ⟨fun s d code din => (hstep s d code din).trans (startCall_writes d code s), fun t ht => ?_⟩
  have hword : 0x1B8#10 = assembleWord 0b01#2 .dec Scheme.ami.code 0#3 := by decide
  rw [hword, hstep, startCall_legal] at ht
  obtain rfl := Host.Outcome.next.inj ht
  exact ⟨rfl, rfl, by decide, rfl, rfl, rfl, rfl⟩

/-- END with no element dangling (R97). -/
theorem execEnd_ended {s : State} (hrun : s.st = .run) (hphase : s.phase = false) : exec .endCall s = .next s.ended := by
  simp [exec, execEndCall, hrun, hphase]

/-- END with an element dangling is left to `endDangling` (R97). -/
theorem execEnd_dangling {s : State} (hrun : s.st = .run) (hphase : s.phase = true) : exec .endCall s = endDangling s := by
  simp [exec, execEndCall, hrun, hphase]

/-- R97: a dangling sample of a DEC call. -/
theorem endDangling_dec {s : State} (hdir : s.dir = .dec) : endDangling s = .next (s.raised .eOddlen) := by
  simp [endDangling, hdir, raiseError]

/-- R97: a dangling bit of an ENC call under TRUNCATE. -/
theorem endDangling_truncate {s : State} (hdir : s.dir = .enc) (hpolicy : s.policy = .truncate) :
    endDangling s = .next s.dropped := by
  simp [endDangling, hdir, hpolicy]

/-- R97: a dangling bit of an ENC call under REJECT. -/
theorem endDangling_reject {s : State} (hdir : s.dir = .enc) (hpolicy : s.policy = .reject) :
    endDangling s = .next (s.raised .eOddlen) := by
  simp [endDangling, hdir, hpolicy, raiseError]

/-- The call types of unit size 2 (R54). -/
theorem unitIn_eq_two_iff (d : Dir) (S : Scheme) :
    unitIn d S = 2 ↔ (d = .enc ∧ S = .twoB1Q) ∨ (d = .dec ∧ (S = .rz ∨ S = .man ∨ S = .dman)) := by
  cases d <;> cases S <;> decide

/-- R23: an element is held only while SCHEME selects a codec of unit size 2. -/
theorem State.Inv.unitIn_of_phase {s : State} (h : s.Inv) (hphase : s.phase = true) :
    ∃ S, s.scheme = S.code ∧ unitIn s.dir S = 2 := by
  cases hS : schemeOfCode s.scheme with
  | none => exact absurd (hphase.symm.trans (h.unselected hS).phase) (by decide)
  | some S => exact ⟨S, code_of_schemeOfCode hS, ((h.selected S hS).pairs hphase).1⟩

/-- Settles O22: one branch of END each, and the invariant's call types of unit size 2. -/
theorem endOfACall : Obligations.EndOfACall := by
  refine ⟨fun _ => execEnd_ignored, fun _ => execEnd_ended,
    fun _ hrun hphase hdir => (execEnd_dangling hrun hphase).trans (endDangling_dec hdir),
    fun _ hrun hphase hdir hpolicy => (execEnd_dangling hrun hphase).trans (endDangling_truncate hdir hpolicy),
    fun _ hrun hphase hdir hpolicy => (execEnd_dangling hrun hphase).trans (endDangling_reject hdir hpolicy),
    fun s hinv _ hphase => ?_⟩
  obtain ⟨S, hscheme, htwo⟩ := hinv.unitIn_of_phase hphase
  rw [hscheme]
  rcases (unitIn_eq_two_iff s.dir S).mp htwo with ⟨hdir, rfl⟩ | ⟨hdir, rfl | rfl | rfl⟩
  · exact .inr ⟨hdir, rfl⟩
  · exact .inl ⟨hdir, .inl rfl⟩
  · exact .inl ⟨hdir, .inr (.inl rfl)⟩
  · exact .inl ⟨hdir, .inr (.inr rfl)⟩

/-- A codec of unit size 2 takes its first element without a look at it (R95). -/
theorem acceptElement_holds {α β : Type} {f : Int → α → α → Except ECode (Int × List β)} {s : State}
    (hphase : s.phase = false) (read : Lane → α) (wrap : β → Element) (din : Lane) :
    acceptElement (.two f) read wrap din s = .next (s.held din) := by
  simp [acceptElement, hphase]

/-- The first well-formed element of a pair fills HOLD (R95). -/
theorem execPush_holds {d : Dir} {S : Scheme} {s : State} (hcall : InCall d S s) (htwo : unitIn d S = 2)
    (hphase : s.phase = false) {din : Lane} (hbit : d = .enc → din.toNat ≤ 1) :
    exec (.push din) s = .next (s.held din) := by
  cases d with
  | enc =>
    have hwf : isMalformedBit din = false := by
      rw [← Bool.not_eq_true, isMalformedBit_iff]
      have := hbit rfl
      omega
    obtain ⟨hone, _⟩ | ⟨_, f, hf⟩ := encoder_shape S
    · omega
    · rw [eq_bitLane_of_wellFormed hwf, execPush_enc hcall, hf, acceptElement_holds hphase]
  | dec =>
    obtain ⟨hone, _⟩ | ⟨_, f, hf⟩ := decoder_shape S
    · omega
    · rw [execPush_dec hcall, hf, acceptElement_holds hphase]

/-- Settles O20: the call types of unit size 2, HOLD filled in each, and DEC.MAN as the rule has it. -/
theorem firstElementOfAPairFillsHold : Obligations.FirstElementOfAPairFillsHold :=
  ⟨unitIn_eq_two_iff, fun _ _ _ _ hcall htwo hphase hbit => execPush_holds hcall htwo hphase hbit,
    fun _ hcall hphase => ⟨execPush_holds hcall rfl hphase (fun h => nomatch h), by decide⟩⟩

end Sys2Proof.Machine
end

section
/-! What a PUSH can do in any state, with the unit sizes and the errors its codec has; the emission and the status of a step
(R91, R96, R101). -/

namespace Sys2Proof.Machine

/-- An encoder never fails (R9). -/
theorem encoder_one_ne_error {S : Scheme} {f} (h : encoder S = .one f) {L : Int} {b : Bit} {e : ECode} :
    f L b ≠ .error e := by
  cases S <;> simp only [encoder, UnitFn.one.injEq, reduceCtorEq] at h <;> subst h <;> exact nofun

/-- R9. -/
theorem encoder_two_ne_error {S : Scheme} {f} (h : encoder S = .two f) {L : Int} {b0 b1 : Bit} {e : ECode} :
    f L b0 b1 ≠ .error e := by
  cases S <;> simp only [encoder, UnitFn.two.injEq, reduceCtorEq] at h
  subst h; exact nofun

/-- The errors of a codec on a whole unit, from any carried level (R187). -/
def IsUnitError (e : ECode) : Prop := e = .eTransition ∨ e = .eSignal

/-- R146, R148: of the decoders of unit size 1 two can fail. -/
theorem decoder_one_error {S : Scheme} {f} (h : decoder S = .one f) {L v : Int} {e : ECode} (hf : f L v = .error e) :
    IsUnitError e := by
  cases S <;> simp only [decoder, UnitFn.one.injEq, reduceCtorEq] at h <;> subst h <;>
    simp only [decUni, decNrzl, decNrzi, decAmi, decPst, dec2B1Q] at hf <;> (repeat' split at hf) <;> cases hf
  · exact .inr rfl
  · exact .inl rfl

/-- R144: of the decoders of unit size 2 one can fail. -/
theorem decoder_two_error {S : Scheme} {f} (h : decoder S = .two f) {L a c : Int} {e : ECode} (hf : f L a c = .error e) :
    IsUnitError e := by
  cases S <;> simp only [decoder, UnitFn.two.injEq, reduceCtorEq] at h <;> subst h <;>
    simp only [decRz, decMan, decDman] at hf <;> (repeat' split at hf) <;> cases hf
  exact .inl rfl

/-- The answer to a whole unit under a direction and a scheme: UOUT elements (R54), or an error of a unit. -/
def IsUnitAnswer {β : Type} (d : Dir) (S : Scheme) : Except ECode (Int × List β) → Prop
  | .ok (_, o) => o.length = unitOut d S
  | .error e => IsUnitError e

/-- A unit function has the unit sizes R54 gives to a direction and a scheme. -/
def UnitFn.Fits {α β : Type} (d : Dir) (S : Scheme) : UnitFn α β → Prop
  | .one f => unitIn d S = 1 ∧ ∀ L a, IsUnitAnswer d S (f L a)
  | .two f => unitIn d S = 2 ∧ ∀ L a c, IsUnitAnswer d S (f L a c)

/-- R54, R96, column ENC. -/
theorem encoder_fits (S : Scheme) : (encoder S).Fits .enc S := by
  rcases encoder_shape S with ⟨hin, f, hf⟩ | ⟨hin, f, hf⟩ <;> rw [hf]
  · refine ⟨hin, fun L b => ?_⟩
    cases hr : f L b with
    | ok r => exact encoder_one_length hf hr
    | error e => exact absurd hr (encoder_one_ne_error hf)
  · refine ⟨hin, fun L b0 b1 => ?_⟩
    cases hr : f L b0 b1 with
    | ok r => exact encoder_two_length hf hr
    | error e => exact absurd hr (encoder_two_ne_error hf)

/-- R54, R96, column DEC. -/
theorem decoder_fits (S : Scheme) : (decoder S).Fits .dec S := by
  rcases decoder_shape S with ⟨hin, f, hf⟩ | ⟨hin, f, hf⟩ <;> rw [hf]
  · refine ⟨hin, fun L v => ?_⟩
    cases hr : f L v with
    | ok r => exact decoder_one_length hf hr
    | error e => exact decoder_one_error hf hr
  · refine ⟨hin, fun L a c => ?_⟩
    cases hr : f L a c with
    | ok r => exact decoder_two_length hf hr
    | error e => exact decoder_two_error hf hr

/-- Everything a PUSH of `din` can make of the state `s` (R94 to R96, R99), with the guard of each case. -/
inductive PushOutcome (din : Lane) (s : State) : State → Prop
  | ignored (hidle : s.st ≠ .run) : PushOutcome din s s.quiet
  | holds {S : Scheme} (hcall : InCall s.dir S s) (htwo : unitIn s.dir S = 2) (hphase : s.phase = false) :
      PushOutcome din s (s.held din)
  | completes {S : Scheme} (hcall : InCall s.dir S s) (hlast : unitIn s.dir S = 1 ∨ s.phase = true) (L' : Int)
      (o : List Element) (hlen : o.length = unitOut s.dir S) : PushOutcome din s (s.completed L' o)
  | raises (hrun : s.st = .run) (e : ECode) (he : e = .eBadbit ∨ IsUnitError e) : PushOutcome din s (s.raised e)

/-- The end of a unit is a completion or a raise. -/
theorem finishUnit_outcome {β : Type} {wrap : β → Element} {r : Except ECode (Int × List β)} {din : Lane} {S : Scheme}
    {s t : State} (hcall : InCall s.dir S s) (hlast : unitIn s.dir S = 1 ∨ s.phase = true)
    (hr : IsUnitAnswer s.dir S r) (h : finishUnit wrap r s = .next t) : PushOutcome din s t := by
  rcases finishUnit_cases h with ⟨L', o, rfl, rfl⟩ | ⟨e, rfl, rfl⟩
  · exact .completes hcall hlast L' _ ((List.length_map wrap).trans hr)
  · exact .raises hcall.running e (.inr hr)

/-- An element given to a codec of the call's unit sizes. -/
theorem acceptElement_outcome {α β : Type} {u : UnitFn α β} {read : Lane → α} {wrap : β → Element} {din : Lane} {S : Scheme}
    {s t : State} (hcall : InCall s.dir S s) (hu : u.Fits s.dir S) (h : acceptElement u read wrap din s = .next t) :
    PushOutcome din s t := by
  cases u with
  | one f => exact finishUnit_outcome hcall (.inl hu.1) (hu.2 _ _) h
  | two f =>
    cases hphase : s.phase with
    | true =>
      simp only [acceptElement, hphase, if_true] at h
      exact finishUnit_outcome hcall (.inr hphase) (hu.2 _ _ _) h
    | false =>
      obtain rfl := Host.Outcome.next.inj ((acceptElement_holds hphase read wrap din).symm.trans h)
      exact .holds hcall hu.1 hphase

/-- Every PUSH that gives a next state is one of the four (R90). -/
theorem execPush_outcome {din : Lane} {s t : State} (h : exec (.push din) s = .next t) : PushOutcome din s t := by
  by_cases hrun : s.st = .run
  swap
  · obtain rfl := Host.Outcome.next.inj ((execPush_ignored hrun din).symm.trans h)
    exact .ignored hrun
  simp only [exec, execPush, hrun, if_true] at h
  cases hdir : s.dir with
  | enc =>
    simp only [hdir, acceptBit, raiseError] at h
    split at h
    · obtain rfl := Host.Outcome.next.inj h
      exact .raises hrun _ (.inl rfl)
    · cases hS : schemeOfCode s.scheme with
      | none => simp [hS] at h
      | some S =>
        simp only [hS] at h
        exact acceptElement_outcome ⟨hrun, rfl, code_of_schemeOfCode hS⟩ (hdir ▸ encoder_fits S) h
  | dec =>
    simp only [hdir, acceptSample] at h
    cases hS : schemeOfCode s.scheme with
    | none => simp [hS] at h
    | some S =>
      simp only [hS] at h
      exact acceptElement_outcome ⟨hrun, rfl, code_of_schemeOfCode hS⟩ (hdir ▸ decoder_fits S) h

/-- A running call has one scheme. -/
theorem InCall.scheme_unique {d d' : Dir} {S S' : Scheme} {s : State} (h : InCall d S s) (h' : InCall d' S' s) : S = S' := by
  have hcode : S.code = S'.code := h.selection.symm.trans h'.selection
  simpa using congrArg schemeOfCode hcode

/-- No END emits (R101). -/
theorem execEnd_out {s t : State} (h : exec .endCall s = .next t) : t.out = [] := by
  rcases execEnd_cases s with ⟨_, h'⟩ | ⟨_, _, h'⟩ | ⟨_, _, _, h'⟩ | ⟨_, _, _, _, h'⟩ <;>
    obtain rfl := Host.Outcome.next.inj (h'.symm.trans h) <;> rfl

/-- A step that emits is a PUSH (R101). -/
theorem command_of_out_ne_nil {p : PortInput} {s t : State} (h : cycle p s = .next t) (hout : t.out ≠ []) :
    ∃ din, p.command = some (.instr (.push din)) ∧ exec (.push din) s = .next t := by
  rcases cycle_cases p s with ⟨_, h'⟩ | ⟨_, _, h'⟩ | ⟨_, _, _, _, h'⟩ | ⟨din, hrst, hd, h'⟩ | ⟨_, _, h'⟩ | ⟨_, _, _, _, _, h'⟩ <;>
    rw [h'] at h
  · cases h; exact absurd rfl hout
  · cases h; exact absurd rfl hout
  · cases h; exact absurd rfl hout
  · exact ⟨din, by simp [PortInput.command, hrst, hd], h⟩
  · exact absurd (execEnd_out h) hout
  · cases h; exact absurd rfl hout

/-- The step on an input that is an instruction runs it (R90). -/
theorem cycle_of_command {p : PortInput} {i : Instr} (h : p.command = some (.instr i)) (s : State) : cycle p s = exec i s :=
  cycle_instr p (decode_of_command h).1 (decode_of_command h).2 s

/-- Settles O21: of the four outcomes of a PUSH only the completion emits, and it alone completes a unit in RUN. -/
theorem stepEmitsOneUnitOrNothing : Obligations.StepEmitsOneUnitOrNothing := by
  intro p s t h
  refine ⟨fun hout => ?_, fun S din hcmd hcall hlast hst => ?_, fun x0 x1 => ?_⟩
  · obtain ⟨din, hcmd, hpush⟩ := command_of_out_ne_nil h hout
    cases execPush_outcome hpush with
    | completes hcall hlast L' o hlen => exact ⟨_, din, hcmd, hcall, hlast, hcall.running, hlen⟩
    | ignored | holds | raises => exact absurd rfl hout
  · rw [cycle_of_command hcmd] at h
    cases execPush_outcome h with
    | ignored hidle => exact absurd hcall.running hidle
    | holds hcall' htwo hphase =>
      obtain rfl := hcall.scheme_unique hcall'
      rcases hlast with hone | hphase'
      · omega
      · exact absurd (hphase'.symm.trans hphase) (by decide)
    | completes hcall' _ L' o hlen => exact hcall.scheme_unique hcall' ▸ hlen
    | raises => exact absurd hst (by simp)
  · obtain ⟨houtN, _, _, hst, hecode⟩ := t.resultWord_fields x0 x1
    exact ⟨houtN, hst, hecode⟩

/-- The column PUSH of R91's table. -/
theorem execPush_status {din : Lane} {s t : State} (h : exec (.push din) s = .next t) :
    (s.st ≠ .run → t.st = s.st) ∧
    (s.st = .run → t.st = .run ∨ (t.st = .err ∧ (t.ecode = .eBadbit ∨ t.ecode = .eTransition ∨ t.ecode = .eSignal))) := by
  cases execPush_outcome h with
  | ignored hidle => exact ⟨fun _ => rfl, fun hrun => absurd hrun hidle⟩
  | holds hcall | completes hcall => exact ⟨fun _ => rfl, .inl⟩
  | raises hrun e he => exact ⟨fun hidle => absurd hrun hidle, fun _ => .inr ⟨rfl, he⟩⟩

/-- The column END of R91's table. -/
theorem execEnd_status {s t : State} (h : exec .endCall s = .next t) :
    (s.st ≠ .run → t.st = s.st) ∧ (s.st = .run → t.st = .done ∨ (t.st = .err ∧ t.ecode = .eOddlen)) := by
  rcases execEnd_cases s with ⟨hidle, h'⟩ | ⟨hrun, _, h'⟩ | ⟨hrun, _, _, h'⟩ | ⟨hrun, _, _, _, h'⟩ <;>
    obtain rfl := Host.Outcome.next.inj (h'.symm.trans h)
  · exact ⟨fun _ => rfl, fun hrun => absurd hrun hidle⟩
  · exact ⟨fun hidle => absurd hrun hidle, fun _ => .inl rfl⟩
  · exact ⟨fun hidle => absurd hrun hidle, fun _ => .inr ⟨rfl, rfl⟩⟩
  · exact ⟨fun hidle => absurd hrun hidle, fun _ => .inl rfl⟩

/-- Settles O23: one column of R91's table each. -/
theorem statusTransitions : Obligations.StatusTransitions := by
  intro p s t h
  refine ⟨fun hrst => ?_, fun hcmd => ?_, fun d S hcmd => ?_, fun d code hcmd => ?_, fun din hcmd => ?_, fun hcmd => ?_⟩
  · obtain rfl := Host.Outcome.next.inj ((cycle_rst p hrst s).symm.trans h)
    rfl
  · obtain rfl := Host.Outcome.next.inj ((cycle_nop hcmd s).symm.trans h)
    rfl
  · rw [cycle_of_command hcmd, exec_startInstr] at h
    obtain rfl := Host.Outcome.next.inj h
    rfl
  · obtain ⟨hrst, hdecode⟩ := decode_of_command hcmd
    obtain ⟨_, _, _, hillegal⟩ := decode_illegal_spec hdecode
    rw [cycle_illegal p hrst hdecode, startCall_illegal d hillegal] at h
    obtain rfl := Host.Outcome.next.inj h
    exact ⟨rfl, rfl⟩
  · exact execPush_status ((cycle_of_command hcmd s).symm.trans h)
  · exact execEnd_status ((cycle_of_command hcmd s).symm.trans h)

end Sys2Proof.Machine
end

section
/-! NOP (R92): a run is decided by its commands, up to the emission that the last step leaves in the state. -/

namespace Sys2Proof.Machine

/-- A run's answer. -/
abbrev RunResult := Host.Outcome (State × List Element) Fault Refusal

/-- A run's answer without the emission of its last step in the end state. -/
def settled : RunResult → RunResult
  | .next (u, o) => .next (u.quiet, o)
  | .fault r => .fault r
  | .refused r => .refused r

/-- A run's answer after a first step that emitted `o'`. -/
def emittedAfter (o' : List Element) : RunResult → RunResult
  | .next (u, o) => .next (u, o' ++ o)
  | .fault r => .fault r
  | .refused r => .refused r

theorem settled_emittedAfter (o' : List Element) (r : RunResult) :
    settled (emittedAfter o' r) = emittedAfter o' (settled r) := by
  cases r <;> rfl

@[simp] theorem emittedAfter_nil (r : RunResult) : emittedAfter [] r = r := by
  cases r <;> rfl

/-- A run after its first step (R90). -/
theorem runInputs_cons_next {p : PortInput} {s t : State} (h : cycle p s = .next t) (ps : List PortInput) :
    runInputs (p :: ps) s = emittedAfter t.out (runInputs ps t) := by
  simp only [runInputs, h]
  cases runInputs ps t <;> rfl

/-- Where a run is settled to depends on the settled state only. -/
theorem settled_runInputs_quiet (ps : List PortInput) (s : State) :
    settled (runInputs ps s.quiet) = settled (runInputs ps s) := by
  cases ps with
  | nil => rfl
  | cons p ps => simp only [runInputs, State.quiet, cycle_out]

/-- An input that is no NOP. -/
def PortInput.acts (p : PortInput) : Bool := p.command != some (.instr .nop)

theorem commandsOf_eq_map_filter (ps : List PortInput) : commandsOf ps = (ps.filter PortInput.acts).map PortInput.command :=
  List.filter_map

/-- NOPs can be left out of a run (R92). -/
theorem settled_runInputs_filter (ps : List PortInput) (s : State) :
    settled (runInputs (ps.filter PortInput.acts) s) = settled (runInputs ps s) := by
  induction ps generalizing s with
  | nil => rfl
  | cons p ps ih =>
    by_cases hnop : p.command = some (.instr .nop)
    · have hacts : ¬p.acts = true := by simp [PortInput.acts, hnop]
      rw [List.filter_cons_of_neg hacts, runInputs_cons_next (cycle_nop hnop s), State.quiet_out, emittedAfter_nil,
        settled_runInputs_quiet, ih]
    · have hacts : p.acts = true := by simp [PortInput.acts, hnop]
      rw [List.filter_cons_of_pos hacts]
      cases h : cycle p s with
      | next t => simp only [runInputs_cons_next h, settled_emittedAfter, ih]
      | fault r => simp only [runInputs, h]
      | refused r => simp only [runInputs, h]

/-- A run reads its inputs as commands only (R28, R70, R211). -/
theorem runInputs_eq_of_commands {ps qs : List PortInput} (h : ps.map PortInput.command = qs.map PortInput.command)
    (s : State) : runInputs ps s = runInputs qs s := by
  induction ps generalizing qs s with
  | nil => rw [List.map_eq_nil_iff.mp h.symm]
  | cons p ps ih =>
    cases qs with
    | nil => cases h
    | cons q qs =>
      obtain ⟨hpq, hrest⟩ := List.cons.inj h
      simp only [runInputs, cycle_command hpq, ih hrest]

/-- The commands of an input stream settle its run. -/
theorem settled_runInputs_of_commandsOf {ps qs : List PortInput} (h : commandsOf ps = commandsOf qs) (s : State) :
    settled (runInputs ps s) = settled (runInputs qs s) := by
  rw [commandsOf_eq_map_filter, commandsOf_eq_map_filter] at h
  rw [← settled_runInputs_filter ps, ← settled_runInputs_filter qs, runInputs_eq_of_commands h]

/-- States that settle to the same differ in the last emission only. -/
theorem State.eq_with_out_of_quiet {u u' : State} (h : u'.quiet = u.quiet) : u' = { u with out := u'.out } :=
  congrArg (fun v : State => { v with out := u'.out }) h

/-- Settles O13: NOP is `quiet`, and the settled run, which the commands decide, keeps all but the last emission. -/
theorem nopHasNoEffect : Obligations.NopHasNoEffect := by
  refine ⟨exec_nop, fun ps qs s u o hcmds hrun => ?_⟩
  have hsettled := settled_runInputs_of_commandsOf hcmds s
  rw [hrun] at hsettled
  cases hq : runInputs qs s with
  | next r =>
    obtain ⟨u', o'⟩ := r
    rw [hq] at hsettled
    obtain ⟨hquiet, rfl⟩ := Prod.mk.inj (Host.Outcome.next.inj hsettled)
    exact ⟨u', rfl, State.eq_with_out_of_quiet hquiet.symm⟩
  | fault r => rw [hq] at hsettled; cases hsettled
  | refused r => rw [hq] at hsettled; cases hsettled

end Sys2Proof.Machine
end

section
/-! The encoders on the machine: the step of PUSH on one bit, or one bit pair, of an ENC call, for each of the nine schemes
(R120 to R128). -/

namespace Sys2Proof.Machine

/-- A START word decodes to its row whatever is put into its ignored din (R70, R80). -/
theorem decode_startWord_or_din (d : Dir) (S : Scheme) (din : Lane) :
    Sys2Proof.decode (startWord d S.code ||| din.setWidth 10) = .instr (startInstr d S) := by
  have hword : startWord d S.code ||| din.setWidth 10 = assembleWord 0b01#2 d S.code din := by
    simp [startWord, assembleWord]
  rw [hword, decode_startWord, schemeOfCode_code]

/-- A unit that leaves the carried level as LEVEL holds it writes PHASE and the emission only (R96). -/
theorem State.completed_of_sext3 {s : State} {L : Int} (hL : sext3 s.level = L) (out : List Element) :
    s.completed L out = { s with phase := false, out := out } := by
  rw [State.completed, ← hL, tc3_sext3]

/-- PUSH of a bit in an ENC call of unit size 1 runs the scheme's unit function (R94, R96). -/
theorem execPush_encodes {S : Scheme} {enc : Int → Bit → Int × List Int} {s : State} {L L' : Int} {b : Bit} {o : List Int}
    (hmux : encoder S = .one fun L b => .ok (enc L b)) (hcall : InCall .enc S s) (hL : sext3 s.level = L)
    (hunit : enc L b = (L', o)) : exec (.push (bitLane b)) s = .next (s.completed L' (o.map .level)) := by
  rw [execPush_enc hcall, hmux]
  simp only [acceptElement, bitOfLane_bitLane, hL, hunit, finishUnit]

/-- PUSH of a bit whose unit function keeps the carried level (R96). -/
theorem execPush_encodes_keeping_level {S : Scheme} {enc : Int → Bit → Int × List Int} {s : State} {L : Int} {b : Bit}
    {o : List Int} (hmux : encoder S = .one fun L b => .ok (enc L b)) (hcall : InCall .enc S s) (hL : sext3 s.level = L)
    (hunit : enc L b = (L, o)) :
    exec (.push (bitLane b)) s = .next { s with phase := false, out := o.map .level } := by
  rw [execPush_encodes hmux hcall hL hunit, State.completed_of_sext3 hL]

/-- PUSH of the second bit of a pair in an ENC call of unit size 2 runs the unit function on the pair (R96). -/
theorem execPush_encodes_pair {S : Scheme} {enc : Int → Bit → Bit → Int × List Int} {s : State} {L L' : Int} {b0 b1 : Bit}
    {o : List Int} (hmux : encoder S = .two fun L b0 b1 => .ok (enc L b0 b1)) (hcall : InCall .enc S s)
    (hphase : s.phase = true) (hhold : s.hold = bitLane b0) (hL : sext3 s.level = L) (hunit : enc L b0 b1 = (L', o)) :
    exec (.push (bitLane b1)) s = .next (s.completed L' (o.map .level)) := by
  rw [execPush_enc hcall, hmux]
  simp only [acceptElement, hphase, if_true, hhold, bitOfLane_bitLane, hL, hunit, finishUnit]

/-- Settles O30: neither bit looks at the carried level. -/
theorem encUniUnit : Obligations.EncUniUnit :=
  ⟨decode_startWord_or_din .enc .uni,
    fun _ _ hcall => execPush_encodes_keeping_level rfl hcall rfl rfl,
    fun _ => rfl⟩

/-- Settles O31: neither bit looks at the carried level. -/
theorem encNrzlUnit : Obligations.EncNrzlUnit :=
  ⟨decode_startWord_or_din .enc .nrzl,
    fun _ _ hcall => execPush_encodes_keeping_level rfl hcall rfl rfl,
    fun _ => rfl⟩

/-- Settles O32: bit 1 completes with the flipped level, bit 0 with the level as it is. -/
theorem encNrziUnit : Obligations.EncNrziUnit :=
  ⟨decode_startWord_or_din .enc .nrzi,
    fun _ L hcall hL _ =>
      ⟨execPush_encodes rfl hcall hL (encNrzi_one L), execPush_encodes_keeping_level rfl hcall hL (encNrzi_zero L)⟩,
    fun _ => rfl⟩

/-- Settles O33: the two samples of each bit, at whatever level is carried. -/
theorem encRzUnit : Obligations.EncRzUnit := by
  refine ⟨decode_startWord_or_din .enc .rz, fun s b hcall => ?_, fun _ => rfl⟩
  cases b with
  | true => exact execPush_encodes_keeping_level rfl hcall rfl (encRz_one _)
  | false => exact execPush_encodes_keeping_level rfl hcall rfl (encRz_zero _)

/-- Settles O34: the two samples of each bit, at whatever level is carried. -/
theorem encManUnit : Obligations.EncManUnit := by
  refine ⟨decode_startWord_or_din .enc .man, fun s b hcall => ?_, fun _ => rfl⟩
  cases b with
  | true => exact execPush_encodes_keeping_level rfl hcall rfl (encMan_one _)
  | false => exact execPush_encodes_keeping_level rfl hcall rfl (encMan_zero _)

/-- Settles O35: two flips give the level back after bit 0; bit 1 leaves the second sample's one flip. -/
theorem encDmanUnit : Obligations.EncDmanUnit :=
  ⟨decode_startWord_or_din .enc .dman,
    fun _ L hcall hL _ =>
      ⟨execPush_encodes_keeping_level rfl hcall hL (encDman_zero L), execPush_encodes rfl hcall hL (encDman_one L)⟩,
    fun _ => rfl⟩

/-- Settles O36: bit 1 completes with the flipped polarity, bit 0 with the polarity as it is. -/
theorem encAmiUnit : Obligations.EncAmiUnit :=
  ⟨decode_startWord_or_din .enc .ami,
    fun _ L hcall hL _ =>
      ⟨execPush_encodes rfl hcall hL (encAmi_one L), execPush_encodes_keeping_level rfl hcall hL (encAmi_zero L)⟩,
    fun _ => rfl⟩

/-- Pseudoternary mirrors AMI (R127). -/
theorem encPst_eq_encAmi_not (L : Int) (b : Bit) : encPst L b = encAmi L (!b) := by
  cases b <;> rfl

/-- Settles O37: bit 0 completes with the flipped polarity, bit 1 with the polarity as it is; AMI on the complement. -/
theorem encPstUnit : Obligations.EncPstUnit :=
  ⟨decode_startWord_or_din .enc .pst,
    fun _ L hcall hL _ =>
      ⟨execPush_encodes rfl hcall hL (encPst_zero L), execPush_encodes_keeping_level rfl hcall hL (encPst_one L)⟩,
    encPst_eq_encAmi_not,
    fun _ => rfl⟩

/-- A row of R128's table, carried level, bit pair and level sent: the 2B1Q unit function emits and carries that level. -/
abbrev IsRowOf2B1Q : Int × Bit × Bit × Int → Prop
  | (L, b0, b1, v) => enc2B1Q L b0 b1 = (v, [v])

/-- Settles O38: every row of the table is a row of the unit function, which the completing PUSH runs. -/
theorem enc2B1QUnit : Obligations.Enc2B1QUnit := by
  refine ⟨decode_startWord_or_din .enc .twoB1Q, fun s L b0 b1 v hrow hcall hphase hhold hL => ?_, fun _ => rfl⟩
  refine execPush_encodes_pair rfl hcall hphase hhold hL ((?hrows : ∀ row ∈ _, IsRowOf2B1Q row) _ hrow)
  decide

end Sys2Proof.Machine
end

section
/-! The decoders on the machine: the step of PUSH on one sample, or one sample pair, of a DEC call, for each of the nine
schemes, and END on a lone sample of a pair (R140 to R148). -/

namespace Sys2Proof.Machine

/-! ### The completing PUSH and the dangling END of a DEC call -/

/-- PUSH of a sample in a DEC call of unit size 1 runs the scheme's unit function (R94, R96). -/
theorem execPush_decodes {S : Scheme} {dec : Int → Int → Except ECode (Int × List Bit)} {s : State}
    (hmux : decoder S = .one dec) (hcall : InCall .dec S s) (din : Lane) :
    exec (.push din) s = finishUnit .bit (dec (sext3 s.level) (sext3 din)) s := by
  rw [execPush_dec hcall, hmux, acceptElement]

/-- PUSH of the second sample of a pair in a DEC call of unit size 2 runs the unit function on the pair (R96). -/
theorem execPush_decodes_pair {S : Scheme} {dec : Int → Int → Int → Except ECode (Int × List Bit)} {s : State}
    (hmux : decoder S = .two dec) (hcall : InCall .dec S s) (hphase : s.phase = true) (din : Lane) :
    exec (.push din) s = finishUnit .bit (dec (sext3 s.level) (sext3 s.hold) (sext3 din)) s := by
  rw [execPush_dec hcall, hmux, acceptElement, if_pos hphase]

/-- END raises E_ODDLEN on a lone first sample, in every DEC call of unit size 2 (R97). -/
theorem execEnd_dangling_dec {S : Scheme} {s : State} (hcall : InCall .dec S s) (hphase : s.phase = true) :
    exec .endCall s = .next (s.raised .eOddlen) :=
  (execEnd_dangling hcall.running hphase).trans (endDangling_dec hcall.direction)

/-- A unit that succeeds writes the carried level it gives (R96). -/
theorem finishUnit_ok {β : Type} (wrap : β → Element) (L : Int) (o : List β) (s : State) :
    finishUnit wrap (.ok (L, o)) s = .next (s.completed L (o.map wrap)) := rfl

/-- A unit that gives back the carried level leaves LEVEL as it is (R96). -/
theorem finishUnit_ok_keeping_level {β : Type} (wrap : β → Element) (o : List β) (s : State) :
    finishUnit wrap (.ok (sext3 s.level, o)) s = .next { s with phase := false, out := o.map wrap } := by
  rw [finishUnit_ok, State.completed_of_sext3 rfl]

/-- A unit that carries a sample puts the sample's lane into LEVEL (R96). -/
theorem finishUnit_ok_carrying {β : Type} (wrap : β → Element) (din : Lane) (o : List β) (s : State) :
    finishUnit wrap (.ok (sext3 din, o)) s = .next { s with level := din, phase := false, out := o.map wrap } := by
  rw [finishUnit_ok, State.completed, tc3_sext3]

/-- A unit that fails raises its error (R96, R190). -/
theorem finishUnit_error {β : Type} (wrap : β → Element) (e : ECode) (s : State) :
    finishUnit wrap (.error e) s = .next (s.raised e) := rfl

/-! ### The decoders' branches (R142, R144, R146, R148) -/

/-- R142: the observed level is carried in both branches; the bit says whether it differs from the level carried before. -/
theorem decNrzi_eq (L v : Int) : decNrzi L v = .ok (v, [decide (v ≠ L)]) := by
  by_cases h : v = L
  · simp [decNrzi, h]
  · simp [decNrzi, h]

theorem decMan_one (L : Int) : decMan L (-1) 1 = .ok (L, [true]) := rfl

theorem decMan_zero (L : Int) : decMan L 1 (-1) = .ok (L, [false]) := rfl

/-- R144: a pair without the mid-bit transition of either bit. -/
theorem decMan_violation {a c : Int} (hone : ¬(a = -1 ∧ c = 1)) (hzero : ¬(a = 1 ∧ c = -1)) (L : Int) :
    decMan L a c = .error .eTransition := by
  rw [decMan, if_neg hone, if_neg hzero]

theorem decAmi_zero (L : Int) : decAmi L 0 = .ok (L, [false]) := rfl

/-- R146: a pulse of the carried polarity. -/
theorem decAmi_mark {L : Int} (hL : L ≠ 0) : decAmi L L = .ok (-L, [true]) := by
  rw [decAmi, if_neg hL, if_pos rfl]

/-- R146: a bipolar violation, or a level outside the alphabet. -/
theorem decAmi_violation {L v : Int} (hzero : v ≠ 0) (hmark : v ≠ L) : decAmi L v = .error .eSignal := by
  rw [decAmi, if_neg hzero, if_neg hmark]

/-- R148: a level that is in no entry of the table. -/
theorem dec2B1Q_violation {v : Int} (h : v ∉ alphabet .twoB1Q) (L : Int) : dec2B1Q L v = .error .eTransition := by
  rw [dec2B1Q, if_neg]
  simpa [alphabet] using h

/-- A row of R148's table, carried level, level received and bit pair: on the lane of that level the 2B1Q unit function gives
those bits and carries the level. -/
abbrev IsRowOfInverse2B1Q : Int × Int × Bit × Bit → Prop
  | (L, v, b0, b1) => dec2B1Q L (sext3 (tc3 v)) = .ok (v, [b0, b1])

/-! ### The nine schemes -/

/-- Settles O39: no sample makes the unit look at the carried level or fail. -/
theorem decUniUnit : Obligations.DecUniUnit :=
  ⟨decode_startWord_or_din .dec .uni,
    fun s din hcall => (execPush_decodes rfl hcall din).trans (finishUnit_ok_keeping_level .bit _ s),
    rfl, rfl⟩

/-- Settles O40: no sample makes the unit look at the carried level or fail. -/
theorem decNrzlUnit : Obligations.DecNrzlUnit :=
  ⟨decode_startWord_or_din .dec .nrzl,
    fun s din hcall => (execPush_decodes rfl hcall din).trans (finishUnit_ok_keeping_level .bit _ s),
    rfl, rfl⟩

/-- Settles O41: the pushed sample is the level carried on, whichever bit it gives. -/
theorem decNrziUnit : Obligations.DecNrziUnit := by
  refine ⟨decode_startWord_or_din .dec .nrzi, fun s din hcall => ?_, rfl, rfl⟩
  rw [execPush_decodes rfl hcall, decNrzi_eq]
  exact finishUnit_ok_carrying .bit din _ s

/-- Settles O42: the bit is read off HOLD alone. -/
theorem decRzUnit : Obligations.DecRzUnit :=
  ⟨decode_startWord_or_din .dec .rz,
    fun s din hcall hphase =>
      ⟨(execPush_decodes_pair rfl hcall hphase din).trans (finishUnit_ok_keeping_level .bit _ s),
        execEnd_dangling_dec hcall hphase⟩,
    rfl, rfl⟩

/-- Settles O43: the two mapped pairs complete at the carried level, any other pair fails. -/
theorem decManUnit : Obligations.DecManUnit := by
  refine ⟨decode_startWord_or_din .dec .man, fun s din hcall hphase => ⟨?_, execEnd_dangling_dec hcall hphase⟩, rfl, rfl⟩
  rw [execPush_decodes_pair rfl hcall hphase]
  split_ifs with hone hzero
  · obtain ⟨ha, hc⟩ := hone
    rw [ha, hc, decMan_one]
    exact finishUnit_ok_keeping_level .bit _ s
  · obtain ⟨ha, hc⟩ := hzero
    rw [ha, hc, decMan_zero]
    exact finishUnit_ok_keeping_level .bit _ s
  · rw [decMan_violation hone hzero]
    exact finishUnit_error .bit .eTransition s

/-- Settles O44: the bit compares HOLD with LEVEL, and the second sample is carried without a look at it. -/
theorem decDmanUnit : Obligations.DecDmanUnit :=
  ⟨decode_startWord_or_din .dec .dman,
    fun s din hcall hphase =>
      ⟨(execPush_decodes_pair rfl hcall hphase din).trans (finishUnit_ok_carrying .bit din _ s),
        execEnd_dangling_dec hcall hphase⟩,
    rfl, rfl, rfl⟩

/-- Settles O45: 0 keeps the carried polarity, a pulse of that polarity flips it, any other level fails. -/
theorem decAmiUnit : Obligations.DecAmiUnit := by
  refine ⟨decode_startWord_or_din .dec .ami, fun s L din hcall hL hcarried => ?_, rfl, rfl, rfl⟩
  have hne : L ≠ 0 := by omega
  rw [execPush_decodes rfl hcall]
  split_ifs with hzero hmark
  · rw [hzero, decAmi_zero]
    exact finishUnit_ok_keeping_level .bit _ s
  · rw [hmark, hL, decAmi_mark hne]
    exact finishUnit_ok .bit (-L) _ s
  · rw [hL, decAmi_violation hzero hmark]
    exact finishUnit_error .bit .eSignal s

/-- Settles O46: no sample makes the unit look at the carried level or fail. -/
theorem decPstUnit : Obligations.DecPstUnit :=
  ⟨decode_startWord_or_din .dec .pst,
    fun s din hcall => (execPush_decodes rfl hcall din).trans (finishUnit_ok_keeping_level .bit _ s),
    rfl, rfl, rfl⟩

/-- Settles O47: every row of the table is a row of the unit function, and the other four levels are in no row. -/
theorem dec2B1QUnit : Obligations.Dec2B1QUnit := by
  refine ⟨decode_startWord_or_din .dec .twoB1Q, fun s L v b0 b1 hrow hcall hL => ?_, fun s din hcall hlevel => ?_, rfl, rfl⟩
  · have hunit : IsRowOfInverse2B1Q (L, v, b0, b1) := (?hrows : ∀ row ∈ _, IsRowOfInverse2B1Q row) _ hrow
    case hrows => decide
    rw [execPush_decodes rfl hcall, hL, hunit]
    exact finishUnit_ok .bit v _ s
  · have hnotSent : sext3 din ∉ alphabet .twoB1Q := by
      rcases hlevel with h | h | h | h <;> rw [h] <;> decide
    rw [execPush_decodes rfl hcall, dec2B1Q_violation hnotSent]
    exact finishUnit_error .bit .eTransition s

end Sys2Proof.Machine
end

section
/-! A successful call of the call level, one unit at a time: what a unit function gives for a unit, the folds that succeed, and
the lengths and levels of their output (R160, R161, R163 to R165, R169). -/

namespace Sys2Proof.Machine

variable {α β : Type}

/-! ### Units -/

/-- The number of input elements in a unit of a codec (R54). -/
def UnitFn.size : UnitFn α β → Nat
  | .one _ => 1
  | .two _ => 2

theorem UnitFn.size_pos (u : UnitFn α β) : 0 < u.size := by
  cases u with
  | one f => exact Nat.one_pos
  | two f => exact Nat.two_pos

@[simp] theorem encoder_size (S : Scheme) : (encoder S).size = unitIn .enc S := by cases S <;> rfl

@[simp] theorem decoder_size (S : Scheme) : (decoder S).size = unitIn .dec S := by cases S <;> rfl

theorem UnitFn.Fits.size_eq {u : UnitFn α β} {d : Dir} {S : Scheme} (hu : u.Fits d S) : u.size = unitIn d S := by
  cases u with
  | one f => exact hu.1.symm
  | two f => exact hu.1.symm

/-- `u.Gives L xs L' o`: from the carried level `L`, the codec answers the unit `xs` with the carried level `L'` and the output
`o` (R9), be the unit one element or two. -/
inductive UnitFn.Gives : UnitFn α β → Int → List α → Int → List β → Prop
  | one {f : Int → α → Except ECode (Int × List β)} {L L' : Int} {x : α} {o : List β} (h : f L x = .ok (L', o)) :
      Gives (.one f) L [x] L' o
  | two {f : Int → α → α → Except ECode (Int × List β)} {L L' : Int} {x y : α} {o : List β} (h : f L x y = .ok (L', o)) :
      Gives (.two f) L [x, y] L' o

theorem UnitFn.Gives.length_unit {u : UnitFn α β} {L L' : Int} {xs : List α} {o : List β} (h : u.Gives L xs L' o) :
    xs.length = u.size := by
  cases h <;> rfl

/-- R54. -/
theorem UnitFn.Gives.length_out {u : UnitFn α β} {d : Dir} {S : Scheme} (hu : u.Fits d S) {L L' : Int} {xs : List α}
    {o : List β} (h : u.Gives L xs L' o) : o.length = unitOut d S := by
  cases h with
  | @one f L L' x o h => simpa [IsUnitAnswer, h] using hu.2 L x
  | @two f L L' x y o h => simpa [IsUnitAnswer, h] using hu.2 L x y

/-- From a legal carried level an encoder emits levels of the alphabet and carries on a legal level (R21, R165). -/
theorem encoder_gives_legal {S : Scheme} {L L' : Int} {xs : List Bit} {o : List Int} (h : (encoder S).Gives L xs L' o)
    (hL : carries .enc S L) : carries .enc S L' ∧ ∀ v ∈ o, v ∈ alphabet S := by
  generalize hu : encoder S = u at h
  cases h with
  | @one f L L' b o h =>
    obtain ⟨L₁, o₁, h₁, hcarries, _, _, halphabet⟩ := encoder_one_legal hu b hL
    obtain ⟨rfl, rfl⟩ := Prod.mk.inj (Except.ok.inj (h.symm.trans h₁))
    exact ⟨hcarries, halphabet⟩
  | @two f L L' b0 b1 o h =>
    obtain ⟨L₁, o₁, h₁, hcarries, _, _, halphabet⟩ := encoder_two_legal hu b0 b1 hL
    obtain ⟨rfl, rfl⟩ := Prod.mk.inj (Except.ok.inj (h.symm.trans h₁))
    exact ⟨hcarries, halphabet⟩

/-! ### Successful folds -/

/-- `u.Succeeds dangling L xs out`: from the carried level `L` the units of `xs` succeed one after the other and emit `out`; a lone
last element of a pair is left over only where that raises nothing. -/
inductive UnitFn.Succeeds (u : UnitFn α β) (dangling : Option ECode) : Int → List α → List β → Prop
  | nil {L : Int} : Succeeds u dangling L [] []
  | leftOver {L : Int} {x : α} (hsize : u.size = 2) (hdangling : dangling = none) : Succeeds u dangling L [x] []
  | unit {L L' : Int} {xs ys : List α} {o out : List β} (hunit : u.Gives L xs L' o) (hrest : Succeeds u dangling L' ys out) :
      Succeeds u dangling L (xs ++ ys) (o ++ out)

theorem UnitFn.Succeeds.fold_eq {u : UnitFn α β} {dangling : Option ECode} {L : Int} {xs : List α} {out : List β}
    (h : u.Succeeds dangling L xs out) : u.fold dangling L xs = .ok out := by
  induction h with
  | nil => cases u <;> rfl
  | leftOver hsize hdangling =>
    subst hdangling
    cases u with
    | one f => cases hsize
    | two f => rfl
  | unit hunit _ ih =>
    cases hunit with
    | one h => exact (foldOne_ok h _).trans (congrArg (Except.map _) ih)
    | two h => exact (foldTwo_ok h _).trans (congrArg (Except.map _) ih)

theorem foldOne_succeeds {f : Int → α → Except ECode (Int × List β)} {dangling : Option ECode} {L : Int} {xs : List α}
    {out : List β} (h : foldOne f L xs = .ok out) : (UnitFn.one f).Succeeds dangling L xs out := by
  induction xs generalizing L out with
  | nil => cases h; exact .nil
  | cons x xs ih =>
    cases hx : f L x with
    | error e => rw [foldOne_error hx] at h; cases h
    | ok r =>
      rw [foldOne_ok hx] at h
      cases hrest : foldOne f r.1 xs with
      | error e => rw [hrest] at h; cases h
      | ok q => rw [hrest] at h; cases h; exact .unit (.one hx) (ih hrest)

theorem foldTwo_succeeds {f : Int → α → α → Except ECode (Int × List β)} {dangling : Option ECode} {L : Int} {xs : List α}
    {out : List β} (h : foldTwo f dangling L xs = .ok out) : (UnitFn.two f).Succeeds dangling L xs out := by
  induction xs using List.twoStepInduction generalizing L out with
  | nil => cases h; exact .nil
  | singleton x =>
    cases dangling with
    | none => cases h; exact .leftOver rfl rfl
    | some e => cases h
  | cons_cons x y xs ih =>
    cases hx : f L x y with
    | error e => rw [foldTwo_error hx] at h; cases h
    | ok r =>
      rw [foldTwo_ok hx] at h
      cases hrest : foldTwo f dangling r.1 xs with
      | error e => rw [hrest] at h; cases h
      | ok q => rw [hrest] at h; cases h; exact .unit (.two hx) (ih hrest)

/-- The folds of R160 and R161 are Ok exactly when their units succeed one after the other. -/
theorem fold_eq_ok_iff {u : UnitFn α β} {dangling : Option ECode} {L : Int} {xs : List α} {out : List β} :
    u.fold dangling L xs = .ok out ↔ u.Succeeds dangling L xs out := by
  refine ⟨fun h => ?_, UnitFn.Succeeds.fold_eq⟩
  cases u with
  | one f => exact foldOne_succeeds h
  | two f => exact foldTwo_succeeds h

theorem encodeCall_eq_ok_iff {p : OddPolicy} {S : Scheme} {bits : List Bit} {sig : List Int} :
    encodeCall p S bits = .ok sig ↔ (encoder S).Succeeds (danglingError p) Config.initialLevel bits sig := fold_eq_ok_iff

theorem decodeCall_eq_ok_iff {S : Scheme} {sig : List Int} {bits : List Bit} :
    decodeCall S sig = .ok bits ↔ (decoder S).Succeeds (some .eOddlen) Config.initialLevel sig bits := fold_eq_ok_iff

/-! ### The empty input (R163) -/

/-- Settles O51: a call of no units at the call level; START and END, neither of which emits, on the machine. -/
theorem emptyInputGivesEmptyOutput : Obligations.EmptyInputGivesEmptyOutput := by
  refine fun S => ⟨fun _ => encodeCall_eq_ok_iff.mpr .nil, decodeCall_eq_ok_iff.mpr .nil, fun s d => ?_⟩
  have hstart : cycle (.word (startWord d S.code)) s = .next (s.started d S.code) :=
    (cycle_startWord d S.code 0#3 s).trans (startCall_legal d S s)
  have hend : cycle (.word endWord) (s.started d S.code) = .next (s.started d S.code).ended :=
    (cycle_word decode_endWord _).trans (execEnd_ended rfl rfl)
  exact ⟨_, runInputs_cons hstart _ (runInputs_cons hend [] rfl), rfl⟩

/-! ### Lengths (R164) -/

/-- A successful call emits UOUT elements for each UIN elements of its input (R54). -/
theorem UnitFn.Succeeds.length_out {u : UnitFn α β} {d : Dir} {S : Scheme} (hu : u.Fits d S) {dangling : Option ECode}
    {L : Int} {xs : List α} {out : List β} (h : u.Succeeds dangling L xs out) :
    out.length = unitOut d S * (xs.length / unitIn d S) := by
  have hsize := hu.size_eq
  induction h with
  | nil => simp
  | leftOver htwo _ => simp [← hsize, htwo]
  | unit hunit _ ih =>
    have hpos : 0 < unitIn d S := hsize ▸ u.size_pos
    rw [List.length_append, List.length_append, ih, hunit.length_out hu, hunit.length_unit, hsize,
      Nat.add_div_left _ hpos, Nat.mul_succ, Nat.add_comm]

/-- Where a left-over element raises, a successful call has none. -/
theorem UnitFn.Succeeds.length_mod {u : UnitFn α β} {dangling : Option ECode} {L : Int} {xs : List α} {out : List β}
    (h : u.Succeeds dangling L xs out) (hraises : dangling ≠ none) : xs.length % u.size = 0 := by
  induction h with
  | nil => simp
  | leftOver _ hdangling => exact absurd hdangling hraises
  | unit hunit _ ih => rw [List.length_append, hunit.length_unit, Nat.add_mod_left, ih]

/-- An odd 2B1Q bit string is encoded under TRUNCATE only (R160). -/
theorem policy_of_encode_odd {p : OddPolicy} {bits : List Bit} {sig : List Int} (h : encodeCall p .twoB1Q bits = .ok sig)
    (hodd : bits.length % 2 = 1) : p = .truncate := by
  cases p with
  | truncate => rfl
  | reject =>
    have heven : bits.length % 2 = 0 := (encodeCall_eq_ok_iff.mp h).length_mod nofun
    omega

/-- Settles O52: UOUT for UIN elements, scheme by scheme, and no sample left over by a decode. -/
theorem lengthLaw : Obligations.LengthLaw := by
  refine ⟨fun p S bits sig h => ?_, fun S sig bits h => ?_⟩
  · have hlength := (encodeCall_eq_ok_iff.mp h).length_out (encoder_fits S)
    cases S with
    | twoB1Q =>
      simp only [unitIn, unitOut] at hlength
      exact ⟨fun _ => by omega, fun hodd => ⟨policy_of_encode_odd h hodd, by omega⟩⟩
    | _ => simpa [unitIn, unitOut] using hlength
  · have hsucceeds := decodeCall_eq_ok_iff.mp h
    have hlength := hsucceeds.length_out (decoder_fits S)
    have hwhole := hsucceeds.length_mod nofun
    rw [decoder_size] at hwhole
    cases S <;> simp only [unitIn, unitOut] at hlength hwhole ⊢ <;> omega

/-! ### Levels (R165) -/

theorem UnitFn.Succeeds.mem_alphabet {S : Scheme} {dangling : Option ECode} {L : Int} {bits : List Bit} {sig : List Int}
    (h : (encoder S).Succeeds dangling L bits sig) (hL : carries .enc S L) : ∀ v ∈ sig, v ∈ alphabet S := by
  induction h with
  | nil => exact nofun
  | leftOver => exact nofun
  | unit hunit _ ih =>
    obtain ⟨hL', ho⟩ := encoder_gives_legal hunit hL
    exact fun v hv => (List.mem_append.mp hv).elim (ho v) (ih hL' v)

/-- R21: the level a call starts with. -/
theorem carries_initialLevel (S : Scheme) : carries .enc S Config.initialLevel := by
  cases S <;> simp [carries, Config.initialLevel]

/-- R5, R165: the levels of all alphabets, and that three bits hold them. -/
theorem alphabet_fits_lane (S : Scheme) :
    ∀ v ∈ alphabet S, v ∈ ([-3, -1, 0, 1, 3] : List Int) ∧ sext3 (tc3 v) = v := by
  cases S <;> decide

/-- R123: a unit of RZ is a pulse and the return to zero. -/
theorem encoder_rz_gives {L L' : Int} {xs : List Bit} {o : List Int} (h : (encoder .rz).Gives L xs L' o) :
    ∃ v, (v = -1 ∨ v = 1) ∧ o = [v, 0] := by
  cases h with
  | @one _ _ _ b _ h =>
    cases b with
    | false => cases h; exact ⟨-1, .inl rfl, rfl⟩
    | true => cases h; exact ⟨1, .inr rfl, rfl⟩

/-- R165: in an RZ signal the samples at even indexes are pulses, those at odd indexes zero. -/
theorem UnitFn.Succeeds.rz_getElem? {dangling : Option ECode} {L : Int} {bits : List Bit} {sig : List Int}
    (h : (encoder .rz).Succeeds dangling L bits sig) :
    ∀ (i : Nat) (v : Int), sig[i]? = some v → (i % 2 = 0 → v = -1 ∨ v = 1) ∧ (i % 2 = 1 → v = 0) := by
  induction h with
  | nil => exact nofun
  | leftOver => exact nofun
  | unit hunit _ ih =>
    obtain ⟨w, hw, rfl⟩ := encoder_rz_gives hunit
    intro i v hv
    match i with
    | 0 => obtain rfl := Option.some.inj hv; exact ⟨fun _ => hw, nofun⟩
    | 1 => obtain rfl := Option.some.inj hv; exact ⟨nofun, fun _ => rfl⟩
    | i + 2 => rw [Nat.add_mod_right]; exact ih i v hv

/-- Settles O53: from the initial level every unit emits levels of the alphabet; RZ's units index by index. -/
theorem emittedLevelsAreInTheAlphabet : Obligations.EmittedLevelsAreInTheAlphabet := by
  refine ⟨fun p S bits sig h v hv => ?_, fun p bits sig h => (encodeCall_eq_ok_iff.mp h).rz_getElem?⟩
  have hmem := (encodeCall_eq_ok_iff.mp h).mem_alphabet (carries_initialLevel S) v hv
  exact ⟨by cases S <;> exact hmem, alphabet_fits_lane S v hmem⟩

/-! ### Codecs that validate nothing (R169) -/

/-- A codec that accepts every unit. -/
def UnitFn.Total (u : UnitFn α β) : Prop := ∀ L xs, xs.length = u.size → ∃ L' o, u.Gives L xs L' o

theorem UnitFn.total_one {f : Int → α → Except ECode (Int × List β)} (h : ∀ L x, ∃ r, f L x = .ok r) :
    (UnitFn.one f).Total := by
  intro L xs hxs
  obtain ⟨x, rfl⟩ := List.length_eq_one_iff.mp hxs
  obtain ⟨r, hr⟩ := h L x
  exact ⟨r.1, r.2, .one hr⟩

theorem UnitFn.total_two {f : Int → α → α → Except ECode (Int × List β)} (h : ∀ L x y, ∃ r, f L x y = .ok r) :
    (UnitFn.two f).Total := by
  intro L xs hxs
  obtain ⟨x, y, rfl⟩ := List.length_eq_two.mp hxs
  obtain ⟨r, hr⟩ := h L x y
  exact ⟨r.1, r.2, .two hr⟩

/-- A codec that accepts every unit accepts every sequence of whole units. -/
theorem UnitFn.Total.exists_succeeds {u : UnitFn α β} (hu : u.Total) (dangling : Option ECode) (L : Int) {xs : List α}
    (hwhole : xs.length % u.size = 0) : ∃ out, u.Succeeds dangling L xs out := by
  obtain ⟨k, hk⟩ := Nat.dvd_of_mod_eq_zero hwhole
  induction k generalizing L xs with
  | zero =>
    obtain rfl := List.length_eq_zero_iff.mp hk
    exact ⟨[], .nil⟩
  | succ k ih =>
    rw [Nat.mul_succ] at hk
    have hunit : (xs.take u.size).length = u.size := by rw [List.length_take]; omega
    have hrest : (xs.drop u.size).length = u.size * k := by rw [List.length_drop]; omega
    obtain ⟨L', o, hgives⟩ := hu L _ hunit
    obtain ⟨out, hout⟩ := ih L' (by rw [hrest, Nat.mul_mod_right]) hrest
    exact ⟨o ++ out, List.take_append_drop u.size xs ▸ .unit hgives hout⟩

/-- The six decoders without a check (R140 to R143, R145, R147). -/
theorem decoder_total {S : Scheme} (hman : S ≠ .man) (hami : S ≠ .ami) (h2b1q : S ≠ .twoB1Q) : (decoder S).Total := by
  cases S with
  | uni => exact UnitFn.total_one fun _ _ => ⟨_, rfl⟩
  | nrzl => exact UnitFn.total_one fun _ _ => ⟨_, rfl⟩
  | nrzi => exact UnitFn.total_one fun L v => ⟨_, decNrzi_eq L v⟩
  | rz => exact UnitFn.total_two fun _ _ _ => ⟨_, rfl⟩
  | man => exact absurd rfl hman
  | dman => exact UnitFn.total_two fun _ _ _ => ⟨_, rfl⟩
  | ami => exact absurd rfl hami
  | pst => exact UnitFn.total_one fun _ _ => ⟨_, rfl⟩
  | twoB1Q => exact absurd rfl h2b1q

/-- R161, R169: a signal of whole units decodes under a scheme whose decoder validates nothing. -/
theorem exists_decodeCall_eq_ok {S : Scheme} {sig : List Int} (hman : S ≠ .man) (hami : S ≠ .ami) (h2b1q : S ≠ .twoB1Q)
    (hwhole : sig.length % unitIn .dec S = 0) : ∃ bits, decodeCall S sig = .ok bits := by
  rw [← decoder_size] at hwhole
  obtain ⟨bits, hbits⟩ := (decoder_total hman hami h2b1q).exists_succeeds (some .eOddlen) Config.initialLevel hwhole
  exact ⟨bits, decodeCall_eq_ok_iff.mpr hbits⟩

/-- Settles O56: the three signals evaluated, and the total decoders. -/
theorem invalidSignalsAreRejected : Obligations.InvalidSignalsAreRejected :=
  ⟨rfl, rfl, rfl, fun _ _ => exists_decodeCall_eq_ok⟩

end Sys2Proof.Machine
end

section
/-! One codec after another: a codec that reads back each unit of another reads back its calls. The round trip, its converse for
the schemes that validate, and Pseudoternary under the AMI decoder (R166, R168, R170, R171). -/

namespace Sys2Proof.Machine

variable {α β γ : Type}

/-! ### Reading a call back -/

/-- The whole units of an input: all of it but the element left over at its end. -/
def UnitFn.whole (u : UnitFn α β) (xs : List α) : List α := xs.take (xs.length - xs.length % u.size)

theorem UnitFn.whole_of_length_mod {u : UnitFn α β} {xs : List α} (h : xs.length % u.size = 0) : u.whole xs = xs := by
  rw [UnitFn.whole, h, Nat.sub_zero, List.take_length]

theorem UnitFn.whole_append {u : UnitFn α β} {xs : List α} (h : xs.length = u.size) (ys : List α) :
    u.whole (xs ++ ys) = xs ++ u.whole ys := by
  rw [UnitFn.whole, List.length_append, h, Nat.add_mod_left, Nat.add_sub_assoc (Nat.mod_le _ _), ← h,
    List.take_length_add_append, UnitFn.whole, h]

/-- `v` reads the output of a unit of `u` as that unit again, each element seen through `g`, while the carried levels of the two
stay in the relation `R`. -/
def UnitFn.ReadBack (u : UnitFn α β) (v : UnitFn β γ) (g : α → γ) (R : Int → Int → Prop) : Prop :=
  ∀ ⦃L M L' : Int⦄ ⦃xs : List α⦄ ⦃o : List β⦄, R L M → u.Gives L xs L' o → ∃ M', v.Gives M o M' (xs.map g) ∧ R L' M'

/-- A codec that reads back the units of another reads back its successful calls, but for an element left over. -/
theorem UnitFn.Succeeds.readBack {u : UnitFn α β} {v : UnitFn β γ} {g : α → γ} {R : Int → Int → Prop}
    (huv : u.ReadBack v g R) {dangling : Option ECode} (dangling' : Option ECode) {L M : Int} {xs : List α} {out : List β}
    (h : u.Succeeds dangling L xs out) (hR : R L M) : v.Succeeds dangling' M out ((u.whole xs).map g) := by
  induction h generalizing M with
  | nil => exact .nil
  | leftOver hsize _ =>
    rw [UnitFn.whole, hsize]
    exact .nil
  | unit hunit _ ih =>
    obtain ⟨M', hgives, hR'⟩ := huv hR hunit
    rw [UnitFn.whole_append hunit.length_unit, List.map_append]
    exact .unit hgives (ih hR')

/-- Reading back a codec of unit size 1 that never fails, element by element. -/
theorem UnitFn.readBack_one {enc : Int → α → Int × List β} {v : UnitFn β γ} {g : α → γ} {R : Int → Int → Prop}
    (h : ∀ L M x, R L M → ∃ M', v.Gives M (enc L x).2 M' [g x] ∧ R (enc L x).1 M') :
    (UnitFn.one fun L x => .ok (enc L x)).ReadBack v g R := by
  intro L M L' xs o hR hgives
  cases hgives with
  | one hunit =>
    obtain ⟨hL', ho⟩ := Prod.mk.inj (Except.ok.inj hunit)
    subst hL' ho
    exact h L M _ hR

/-! ### The round trip (R166) -/

/-- The carried levels of a scheme's encoder and of its decoder on the encoder's signal: the same, but that DEC.PST keeps none
(R147). The encoder's is never 0 (R21). -/
def InStep (S : Scheme) (L M : Int) : Prop := L ≠ 0 ∧ (S ≠ .pst → M = L)

/-- R128 and R148 are inverse tables, whatever the carried level. -/
theorem dec2B1Q_enc2B1Q (L : Int) (b0 b1 : Bit) :
    dec2B1Q L (enc2B1Q L b0 b1).1 = .ok ((enc2B1Q L b0 b1).1, [b0, b1]) := by
  by_cases hL : 0 < L <;> cases b0 <;> cases b1 <;> simp [dec2B1Q, enc2B1Q, hL]

theorem enc2B1Q_ne_zero (L : Int) (b0 b1 : Bit) : (enc2B1Q L b0 b1).1 ≠ 0 := by
  by_cases hL : 0 < L <;> cases b0 <;> cases b1 <;> simp [enc2B1Q, hL]

/-- Every scheme's decoder reads back the units of its encoder. -/
theorem encoder_readBack_decoder (S : Scheme) : (encoder S).ReadBack (decoder S) id (InStep S) := by
  cases S with
  | uni =>
    refine UnitFn.readBack_one fun L M b hstep => ⟨M, .one ?_, hstep⟩
    cases b <;> rfl
  | nrzl =>
    refine UnitFn.readBack_one fun L M b hstep => ⟨M, .one ?_, hstep⟩
    cases b <;> rfl
  | nrzi =>
    refine UnitFn.readBack_one fun L M b ⟨hL, hM⟩ => ?_
    obtain rfl := hM nofun
    cases b with
    | false => exact ⟨M, .one (if_pos rfl), hL, fun _ => rfl⟩
    | true => exact ⟨-M, .one (if_neg (neg_ne_self.mpr hL)), neg_ne_zero.mpr hL, fun _ => rfl⟩
  | rz =>
    refine UnitFn.readBack_one fun L M b hstep => ⟨M, ?_, by cases b <;> exact hstep⟩
    cases b <;> exact .two rfl
  | man =>
    refine UnitFn.readBack_one fun L M b hstep => ⟨M, ?_, hstep⟩
    cases b <;> exact .two rfl
  | dman =>
    refine UnitFn.readBack_one fun L M b ⟨hL, hM⟩ => ?_
    obtain rfl := hM nofun
    cases b with
    | false =>
      rw [encDman_zero]
      exact ⟨M, .two (by simp [decDman, neg_ne_self.mpr hL]), hL, fun _ => rfl⟩
    | true => exact ⟨-M, .two (by simp [decDman]), neg_ne_zero.mpr hL, fun _ => rfl⟩
  | ami =>
    refine UnitFn.readBack_one fun L M b ⟨hL, hM⟩ => ?_
    obtain rfl := hM nofun
    cases b with
    | false => exact ⟨M, .one (decAmi_zero M), hL, fun _ => rfl⟩
    | true => exact ⟨-M, .one (decAmi_mark hL), neg_ne_zero.mpr hL, fun _ => rfl⟩
  | pst =>
    refine UnitFn.readBack_one fun L M b ⟨hL, _⟩ => ?_
    cases b with
    | false => exact ⟨M, .one (by simp [decPst, hL]), neg_ne_zero.mpr hL, absurd rfl⟩
    | true => exact ⟨M, .one rfl, hL, absurd rfl⟩
  | twoB1Q =>
    intro L M L' bits o ⟨hL, hM⟩ hgives
    obtain rfl := hM nofun
    cases hgives with
    | two hunit =>
      cases hunit
      exact ⟨_, .one (dec2B1Q_enc2B1Q M _ _), enc2B1Q_ne_zero M _ _, fun _ => rfl⟩

/-- The whole units of a bit string, as R166 counts them: only 2B1Q can leave a bit over. -/
theorem encoder_whole (S : Scheme) (bits : List Bit) :
    (encoder S).whole bits = if S = .twoB1Q ∧ bits.length % 2 = 1 then bits.dropLast else bits := by
  split_ifs with hodd
  · obtain ⟨rfl, hodd⟩ := hodd
    rw [UnitFn.whole, encoder_size, unitIn, hodd, List.dropLast_eq_take]
  · apply UnitFn.whole_of_length_mod
    rw [encoder_size]
    cases S with
    | twoB1Q => exact Nat.mod_two_ne_one.mp fun h => hodd ⟨rfl, h⟩
    | _ => exact Nat.mod_one _

/-- R166: the whole units of a bit string come back from its signal. -/
theorem decodeCall_encodeCall {p : OddPolicy} {S : Scheme} {bits : List Bit} {sig : List Int}
    (h : encodeCall p S bits = .ok sig) : decodeCall S sig = .ok ((encoder S).whole bits) := by
  rw [← List.map_id ((encoder S).whole bits)]
  exact decodeCall_eq_ok_iff.mpr
    ((encodeCall_eq_ok_iff.mp h).readBack (encoder_readBack_decoder S) _ ⟨by decide, fun _ => rfl⟩)

/-- Settles O54: the decoder reads back the encoder's units, and a bit is left over under TRUNCATE only. -/
theorem roundTripLaw : Obligations.RoundTripLaw := by
  refine fun p S bits sig h => ⟨encoder_whole S bits ▸ decodeCall_encodeCall h, ?_⟩
  rintro ⟨rfl, hodd⟩
  exact policy_of_encode_odd h hodd

/-- A bit string without a bit left over comes back whole. -/
theorem decodeCall_encodeCall_of_even {p : OddPolicy} {S : Scheme} {bits : List Bit} {sig : List Int}
    (heven : S = .twoB1Q → bits.length % 2 = 0) (h : encodeCall p S bits = .ok sig) : decodeCall S sig = .ok bits := by
  have hwhole := encoder_whole S bits
  rw [if_neg fun ⟨hS, hodd⟩ => by have := heven hS; omega] at hwhole
  exact hwhole ▸ decodeCall_encodeCall h

/-- Settles O57: both bit strings are what their common signal decodes to. -/
theorem encodeIsInjective : Obligations.EncodeIsInjective := fun _ _ _ _ _ heven h h' =>
  Except.ok.inj ((decodeCall_encodeCall_of_even (fun hS => (heven hS).1) h).symm.trans
    (decodeCall_encodeCall_of_even (fun hS => (heven hS).2) h'))

/-! ### The converse (R171) -/

/-- The schemes whose decoder checks what it reads. -/
def Validates (S : Scheme) : Prop := S = .man ∨ S = .ami ∨ S = .twoB1Q

/-- R148: a level the decoder accepts is the one the encoder sends for the bits read. -/
theorem enc2B1Q_of_dec2B1Q {L v L' : Int} {o : List Bit} (h : dec2B1Q L v = .ok (L', o)) :
    ∃ b0 b1, o = [b0, b1] ∧ enc2B1Q L b0 b1 = (L', [v]) := by
  unfold dec2B1Q at h
  split at h
  · next hv =>
    cases h
    refine ⟨_, _, rfl, ?_⟩
    by_cases hL : 0 < L <;> rcases hv with rfl | rfl | rfl | rfl <;> simp [enc2B1Q, hL]
  · cases h

/-- R144: a pair the decoder accepts is the one the encoder sends for the bit read. -/
theorem encMan_of_decMan {L a c L' : Int} {o : List Bit} (h : decMan L a c = .ok (L', o)) :
    ∃ b, o = [b] ∧ encMan L b = (L', [a, c]) := by
  unfold decMan at h
  split_ifs at h with hone hzero
  · obtain ⟨rfl, rfl⟩ := hone; cases h; exact ⟨true, rfl, rfl⟩
  · obtain ⟨rfl, rfl⟩ := hzero; cases h; exact ⟨false, rfl, rfl⟩

/-- R146: a level the decoder accepts is the one the encoder sends for the bit read. -/
theorem encAmi_of_decAmi {L v L' : Int} {o : List Bit} (h : decAmi L v = .ok (L', o)) :
    ∃ b, o = [b] ∧ encAmi L b = (L', [v]) := by
  unfold decAmi at h
  split_ifs at h with hzero hmark
  · subst hzero; cases h; exact ⟨false, rfl, rfl⟩
  · subst hmark; cases h; exact ⟨true, rfl, rfl⟩

/-- The encoder of a scheme that validates reads back the units of its decoder, the two carrying the same level. -/
theorem decoder_readBack_encoder {S : Scheme} (hS : Validates S) : (decoder S).ReadBack (encoder S) id Eq := by
  rintro L _ L' xs o rfl hgives
  rcases hS with rfl | rfl | rfl
  · cases hgives with
    | two hunit =>
      obtain ⟨b, rfl, henc⟩ := encMan_of_decMan hunit
      exact ⟨L', .one (congrArg _ henc), rfl⟩
  · cases hgives with
    | one hunit =>
      obtain ⟨b, rfl, henc⟩ := encAmi_of_decAmi hunit
      exact ⟨L', .one (congrArg _ henc), rfl⟩
  · cases hgives with
    | one hunit =>
      obtain ⟨b0, b1, rfl, henc⟩ := enc2B1Q_of_dec2B1Q hunit
      exact ⟨L', .two (congrArg _ henc), rfl⟩

/-- R171: what a scheme that validates decodes is well formed. -/
theorem encodeCall_decodeCall {S : Scheme} (hS : Validates S) (p : OddPolicy) {sig : List Int} {bits : List Bit}
    (h : decodeCall S sig = .ok bits) : encodeCall p S bits = .ok sig := by
  have hsucceeds := decodeCall_eq_ok_iff.mp h
  have hread := hsucceeds.readBack (decoder_readBack_encoder hS) (danglingError p) rfl
  rw [List.map_id, UnitFn.whole_of_length_mod (hsucceeds.length_mod nofun)] at hread
  exact encodeCall_eq_ok_iff.mpr hread

/-- Settles O58: the converse where the decoder validates, and the six counterexamples evaluated. -/
theorem decodeIsALeftInverseOnly : Obligations.DecodeIsALeftInverseOnly :=
  ⟨fun p _ _ _ hS => encodeCall_decodeCall hS p,
    fun _ => ⟨rfl, rfl, rfl, rfl, rfl, rfl, rfl, rfl, rfl, rfl, rfl, rfl⟩⟩

/-! ### Pseudoternary (R168) -/

/-- ENC.PST accepts every bit (R127). -/
theorem encoder_pst_total : (encoder .pst).Total := UnitFn.total_one fun _ _ => ⟨_, rfl⟩

/-- R168 (c): the AMI decoder reads the units of Pseudoternary as the complement, the two carrying the same polarity. -/
theorem encoder_pst_readBack_decoder_ami :
    (encoder .pst).ReadBack (decoder .ami) (fun b => !b) fun L M => L ≠ 0 ∧ M = L := by
  refine UnitFn.readBack_one fun L M b ⟨hL, hM⟩ => ?_
  subst hM
  cases b with
  | false => exact ⟨-M, .one (decAmi_mark hL), neg_ne_zero.mpr hL, rfl⟩
  | true => exact ⟨M, .one (decAmi_zero M), hL, rfl⟩

/-- R168 (c): a Pseudoternary signal is, to the AMI decoder, the complement of its bits. -/
theorem decodeCall_ami_encodeCall_pst {p : OddPolicy} {bits : List Bit} {sig : List Int}
    (h : encodeCall p .pst bits = .ok sig) : decodeCall .ami sig = .ok (bits.map fun b => !b) := by
  have hread := (encodeCall_eq_ok_iff.mp h).readBack encoder_pst_readBack_decoder_ami (some .eOddlen) ⟨by decide, rfl⟩
  rw [UnitFn.whole_of_length_mod (Nat.mod_one _)] at hread
  exact decodeCall_eq_ok_iff.mpr hread

/-- Settles O55: the round trip, the complement under AMI and, AMI validating, its encoding; the examples evaluated. -/
theorem pseudoternaryAsymmetry : Obligations.PseudoternaryAsymmetry := by
  refine ⟨fun p bits => ?_, fun _ => exists_decodeCall_eq_ok nofun nofun nofun (Nat.mod_one _), rfl, rfl, fun _ => rfl, rfl,
    fun _ => rfl, rfl⟩
  obtain ⟨sig, hsig⟩ := encoder_pst_total.exists_succeeds (danglingError p) Config.initialLevel (Nat.mod_one bits.length)
  have hencode : encodeCall p .pst bits = .ok sig := encodeCall_eq_ok_iff.mpr hsig
  have hami := decodeCall_ami_encodeCall_pst hencode
  exact ⟨sig, hencode, decodeCall_encodeCall_of_even nofun hencode, hami, encodeCall_decodeCall (.inr (.inl rfl)) p hami⟩

end Sys2Proof.Machine
end

section
/-! The error conditions E_SELECT and E_BADBIT, and the stickiness of ERR (R181, R185, R191). -/

namespace Sys2Proof.Machine

/-- Settles O19: the malformed-bit check comes before anything is stored. -/
theorem pushOfANonBitRaisesBadBit : Obligations.PushOfANonBitRaisesBadBit :=
  fun _ din hrun hdir hdin => execPush_badBit hrun hdir ((isMalformedBit_iff din).mpr hdin)

/-- R92, R99: outside RUN a stream without START and RST clears the record of the last emission and does nothing else. -/
theorem runInputs_ignored {ps : List PortInput} {s : State} (hidle : s.st ≠ .run) (hps : ∀ p ∈ ps, p.abandons = false) :
    runInputs ps s = .next ({ s with out := if ps = [] then s.out else [] }, []) := by
  induction ps generalizing s with
  | nil => rfl
  | cons p ps ih =>
    obtain ⟨hp, hrest⟩ := List.forall_mem_cons.mp hps
    rw [runInputs_cons_next (cycle_ignored hp hidle), State.quiet_out, emittedAfter_nil, ih (s := s.quiet) hidle hrest]
    simp [State.quiet]

/-- Settles O25: ERR is not RUN. -/
theorem errorIsSticky : Obligations.ErrorIsSticky :=
  fun _ _ herr hps => runInputs_ignored (by simp [herr]) hps

/-- After a step that emitted nothing a stream ignored outside RUN leaves the whole state as it is. -/
theorem runInputs_ignored_of_out {ps : List PortInput} {s : State} (hidle : s.st ≠ .run) (hout : s.out = [])
    (hps : ∀ p ∈ ps, p.abandons = false) : runInputs ps s = .next (s, []) := by
  rw [runInputs_ignored hidle hps, hout, ite_self]
  exact congrArg (fun t : State => Host.Outcome.next (t, [])) (State.quiet_of_out hout)

/-- R71: ST and ECODE side by side are the low five bits of the result word, whatever the invalid lanes hold. -/
theorem State.resultWord_status (s : State) (x0 x1 : Lane) :
    (s.resultWord x0 x1).extractLsb' 0 5 = s.st.code ++ s.ecode.code := by
  obtain ⟨_, _, _, hst, hecode⟩ := s.resultWord_fields x0 x1
  rw [← hst, ← hecode]
  exact (BitVec.extractLsb'_append_extractLsb'_eq_extractLsb' (w := 13) (len₁ := 3) (len₂ := 2) rfl).symm

/-- R71, R101: a step that emitted nothing shows `out_n` = 0. -/
theorem State.resultWord_outN_of_out {s : State} (h : s.out = []) (x0 x1 : Lane) :
    (s.resultWord x0 x1).extractLsb' 11 2 = 0#2 := by
  obtain ⟨houtN, _⟩ := s.resultWord_fields x0 x1
  rw [houtN, State.outN, h]
  rfl

/-- R74: `cmd` = 01 makes a word a START, whatever its other fields hold. -/
theorem isStart_startWord (d : Dir) (code : SchemeCode) (din : Lane) :
    (PortInput.word (assembleWord 0b01#2 d code din)).isStart = true := by
  cases d <;> revert code din <;> decide

/-- R102: a call whose START raises has failed with that error, whatever inputs follow. -/
theorem callResult_failed_start {p : PortInput} {s t : State} (hp : p.isStart = true) (h : cycle p s = .next t)
    (herr : t.st = .err) (ps : List PortInput) : callResult (p :: ps) s = some (.failed t.ecode) := by
  rw [callResult_start hp h, followCall_ended (State.callEnd_err t.out herr)]

/-- Settles O17: START with such a code raises E_SELECT; what follows is ignored in ERR, and the call has ended at its START. -/
theorem illegalSelectionIsReportedAtOnceAndVoidsTheCall : Obligations.IllegalSelectionIsReportedAtOnceAndVoidsTheCall := by
  intro s d code din hcode
  have hcycle : cycle (.word (assembleWord 0b01#2 d code din)) s = .next ((s.initialised d code).raised .eSelect) :=
    (cycle_startWord d code din s).trans (startCall_illegal d ((schemeOfCode_eq_none_iff code).mpr hcode) s)
  refine ⟨_, (step_present _ [] s).trans hcycle, rfl, rfl, rfl, fun x0 x1 => ⟨?_, State.resultWord_outN_of_out rfl x0 x1⟩,
    fun _ => runInputs_ignored_of_out (by simp) rfl, callResult_failed_start (isStart_startWord d code din) hcycle rfl⟩
  rw [State.resultWord_status, State.raised_st, State.raised_ecode]
  rfl

end Sys2Proof.Machine
end

section
/-! The pin reset and the START after it (R93, R211). -/

namespace Sys2Proof.Machine

/-- R211: a step with `rst` high does not look at `pv`. -/
theorem step_rst (pv : CommandWord) (s : State) : step (s.present [{ rst := true, pv := pv }]) = .next s.pinReset :=
  (step_present _ [] s).trans (cycle_rst _ rfl s)

/-- R93 after R211: the pin reset leaves a START nothing to write but ST, DIR and SCHEME. -/
theorem State.started_pinReset (d : Dir) (c : SchemeCode) (s : State) :
    s.pinReset.started d c = { s.pinReset with st := .run, dir := d, scheme := c } := by
  rw [State.started, State.initialised, tc3_initialLevel]
  rfl

/-- R93 over R211: a START overwrites what the pin reset wrote, but for HOLD and the counter of free values. -/
theorem State.started_pinReset_eq_started (d : Dir) (c : SchemeCode) (s : State) :
    s.pinReset.started d c =
      { s.started d c with hold := s.pinReset.hold, freeIndex := s.pinReset.freeIndex } := rfl

/-- Settles O7: the step is `State.pinReset`, and the START after it is compared with its reset values and with the START
from before it. -/
theorem pinResetStep : Obligations.PinResetStep := by
  refine fun s pv => ⟨s.pinReset.hold, s.pinReset.freeIndex, step_rst pv s, fun t ht d S => ?_⟩
  obtain rfl := Host.Outcome.next.inj ((step_rst pv s).symm.trans ht)
  have hstart := State.started_pinReset d S.code s
  exact ⟨(exec_startInstr d S _).trans (congrArg _ hstart),
    _, exec_startInstr d S s, hstart.symm.trans (State.started_pinReset_eq_started d S.code s)⟩

end Sys2Proof.Machine
end

section
/-! The decoder and the encoder: the fields of a command word, the rows of the opcode map by the fields they look at, and the
words that select no row (R70, R80, R81). -/

namespace Sys2Proof.Machine

/-! ### The fields of a word (R70) -/

theorem dirField_code (w : CommandWord) : (dirField w).code = w.extractLsb' 7 1 := by
  apply BitVec.eq_of_getLsbD_eq
  intro i hi
  obtain rfl : i = 0 := by omega
  unfold dirField
  cases h : w[7] <;> simp [BitVec.getLsbD_eq_getElem, h, Dir.code]

/-- R70, R84: a word is its four fields side by side. -/
theorem assembleWord_fields (w : CommandWord) :
    assembleWord (cmdField w) (dirField w) (schemeField w) (dinField w) = w := by
  rw [assembleWord_eq_append, dirField_code]
  apply BitVec.eq_of_getLsbD_eq (w := 2 + 1 + 4 + 3)
  intro i hi
  rw [BitVec.getLsbD_append, BitVec.getLsbD_append, BitVec.getLsbD_append]
  interval_cases i <;> simp [cmdField, schemeField, dinField]

theorem and_selectorMask (cmd : BitVec 2) (d : Dir) (code : SchemeCode) (din : Lane) :
    assembleWord cmd d code din &&& 0x3F8#10 = assembleWord cmd d code 0#3 := by
  apply BitVec.eq_of_getLsbD_eq
  intro i hi
  interval_cases i <;> simp [assembleWord]

theorem and_cmdMask (cmd : BitVec 2) (d : Dir) (code : SchemeCode) (din : Lane) :
    assembleWord cmd d code din &&& 0x300#10 = assembleWord cmd .enc 0#4 0#3 := by
  apply BitVec.eq_of_getLsbD_eq
  intro i hi
  interval_cases i <;> simp [assembleWord, Dir.code]

theorem and_operandMask (cmd : BitVec 2) (d : Dir) (code : SchemeCode) (din : Lane) :
    assembleWord cmd d code din &&& 0x307#10 = assembleWord cmd .enc 0#4 din := by
  apply BitVec.eq_of_getLsbD_eq
  intro i hi
  interval_cases i <;> simp [assembleWord, Dir.code]

@[simp] theorem cmdField_assembleWord (cmd : BitVec 2) (d : Dir) (code : SchemeCode) (din : Lane) :
    cmdField (assembleWord cmd d code din) = cmd := by
  apply BitVec.eq_of_getLsbD_eq
  intro i hi
  interval_cases i <;> simp [assembleWord, cmdField]

@[simp] theorem schemeField_assembleWord (cmd : BitVec 2) (d : Dir) (code : SchemeCode) (din : Lane) :
    schemeField (assembleWord cmd d code din) = code := by
  apply BitVec.eq_of_getLsbD_eq
  intro i hi
  interval_cases i <;> simp [assembleWord, schemeField]

@[simp] theorem dirField_assembleWord (cmd : BitVec 2) (d : Dir) (code : SchemeCode) (din : Lane) :
    dirField (assembleWord cmd d code din) = d := by
  cases d <;> simp [assembleWord, dirField, Dir.code]

@[simp] theorem dinField_assembleWord (cmd : BitVec 2) (d : Dir) (code : SchemeCode) (din : Lane) :
    dinField (assembleWord cmd d code din) = din := by
  apply BitVec.eq_of_getLsbD_eq
  intro i hi
  interval_cases i <;> simp [assembleWord, dinField]

/-- R74: the words of the four commands are all words. -/
theorem word_cases {P : CommandWord → Prop} (nop : ∀ d code din, P (assembleWord 0b00#2 d code din))
    (start : ∀ d code din, P (assembleWord 0b01#2 d code din)) (push : ∀ d code din, P (assembleWord 0b10#2 d code din))
    (endCall : ∀ d code din, P (assembleWord 0b11#2 d code din)) (w : CommandWord) : P w := by
  have hcmd : ∀ cmd : BitVec 2, cmd = 0b00#2 ∨ cmd = 0b01#2 ∨ cmd = 0b10#2 ∨ cmd = 0b11#2 := by decide
  rw [← assembleWord_fields w]
  rcases hcmd (cmdField w) with h | h | h | h <;> rw [h]
  · exact nop _ _ _
  · exact start _ _ _
  · exact push _ _ _
  · exact endCall _ _ _

/-! ### The decoder on the words of each command (R70, R74) -/

theorem decode_nopFields (d : Dir) (code : SchemeCode) (din : Lane) :
    Sys2Proof.decode (assembleWord 0b00#2 d code din) = .instr .nop := by
  simp [Sys2Proof.decode]

theorem decode_pushFields (d : Dir) (code : SchemeCode) (din : Lane) :
    Sys2Proof.decode (assembleWord 0b10#2 d code din) = .instr (.push din) := by
  simp [Sys2Proof.decode]

theorem decode_endFields (d : Dir) (code : SchemeCode) (din : Lane) :
    Sys2Proof.decode (assembleWord 0b11#2 d code din) = .instr .endCall := by
  simp [Sys2Proof.decode]

/-- Settles O2: each word evaluated. -/
theorem specWordsDecodeToTheirInstructions : Obligations.SpecWordsDecodeToTheirInstructions :=
  ⟨by decide, by decide, by decide, by decide, by decide, by decide, by decide, by decide, by decide⟩

/-- The decoder reads `cmd`, and of the other fields only those its command uses (R70, formats S, P, Z). -/
theorem decode_congr {w w' : CommandWord} (hcmd : cmdField w = cmdField w')
    (hstart : cmdField w = 1#2 → dirField w = dirField w' ∧ schemeField w = schemeField w')
    (hpush : cmdField w = 2#2 → dinField w = dinField w') : Sys2Proof.decode w = Sys2Proof.decode w' := by
  rw [← assembleWord_fields w']
  cases w using word_cases with
  | nop d code din =>
    rw [← hcmd, cmdField_assembleWord, decode_nopFields, decode_nopFields]
  | start d code din =>
    obtain ⟨hdir, hscheme⟩ := hstart (cmdField_assembleWord ..)
    rw [← hcmd, ← hdir, ← hscheme, cmdField_assembleWord, dirField_assembleWord, schemeField_assembleWord,
      decode_startWord, decode_startWord]
  | push d code din =>
    rw [← hcmd, ← hpush (cmdField_assembleWord ..), cmdField_assembleWord, dinField_assembleWord, decode_pushFields,
      decode_pushFields]
  | endCall d code din =>
    rw [← hcmd, cmdField_assembleWord, decode_endFields, decode_endFields]

/-- Settles O6: words that decode alike are one command. -/
theorem ignoredFieldsHaveNoEffect : Obligations.IgnoredFieldsHaveNoEffect := by
  intro w w' s hcmd hstart hpush
  have hcommand : (PortInput.word w).command = (PortInput.word w').command :=
    congrArg some (decode_congr hcmd hstart hpush)
  exact cycle_command hcommand s

/-! ### Decode and encode (R80, R83) -/

theorem encode_startInstr (d : Dir) (S : Scheme) : Sys2Proof.encode (startInstr d S) = startWord d S.code := by
  cases d <;> cases S <;> rfl

theorem encode_push (din : Lane) : Sys2Proof.encode (.push din) = pushWord din := by
  revert din; decide

theorem decode_encode (i : Instr) : Sys2Proof.decode (Sys2Proof.encode i) = .instr i := by
  rcases instr_cases i with rfl | ⟨d, S, rfl⟩ | ⟨din, rfl⟩ | rfl
  · exact decode_nopWord
  · rw [encode_startInstr, startWord, decode_startWord, schemeOfCode_code]
  · rw [encode_push, decode_pushWord]
  · exact decode_endWord

/-- The bits of an instruction's word that its row leaves to its operand (R70). -/
def Instr.operandMask : Instr → CommandWord
  | .push _ => 0x007#10
  | _ => 0x000#10

/-- R80: a START row is the fields of its command word but din. -/
theorem startInstr_row (d : Dir) (S : Scheme) :
    (startInstr d S).row.mask = 0x3F8#10 ∧ (startInstr d S).row.pattern = startWord d S.code ∧
      Instr.operandMask (startInstr d S) = 0x000#10 := by
  cases d <;> cases S <;> exact ⟨rfl, rfl, rfl⟩

/-- R83: what a word decodes to is assembled as the word with its ignored fields zero. -/
theorem encode_of_decode {w : CommandWord} {i : Instr} (h : Sys2Proof.decode w = .instr i) :
    Sys2Proof.encode i = w &&& (i.row.mask ||| Instr.operandMask i) := by
  cases w using word_cases with
  | nop d code din =>
    obtain rfl := Decoded.instr.inj ((decode_nopFields d code din).symm.trans h)
    exact (and_cmdMask 0b00#2 d code din).symm
  | start d code din =>
    rw [decode_startWord] at h
    cases hS : schemeOfCode code with
    | none => simp [hS] at h
    | some S =>
      obtain rfl : startInstr d S = i := by simpa [hS] using h
      obtain ⟨hmask, _, hoperand⟩ := startInstr_row d S
      rw [hmask, hoperand, BitVec.or_zero, and_selectorMask, encode_startInstr, code_of_schemeOfCode hS, startWord]
  | push d code din =>
    obtain rfl := Decoded.instr.inj ((decode_pushFields d code din).symm.trans h)
    have hmask : (Instr.push din).row.mask ||| Instr.operandMask (.push din) = 0x307#10 :=
      (rfl : 0x300#10 ||| 0x007#10 = 0x307#10)
    rw [encode_push, hmask]
    exact (and_operandMask 0b10#2 d code din).symm
  | endCall d code din =>
    obtain rfl := Decoded.instr.inj ((decode_endFields d code din).symm.trans h)
    exact (and_cmdMask 0b11#2 d code din).symm

/-- R80: the word of an instruction selects its row, which is in the opcode map. -/
theorem rowMatch : ∀ i : Instr, Laws.RowMatch.Statement i
  | .nop => Laws.RowMatch.nop
  | .startEncUni => Laws.RowMatch.startEncUni
  | .startEncNrzl => Laws.RowMatch.startEncNrzl
  | .startEncNrzi => Laws.RowMatch.startEncNrzi
  | .startEncRz => Laws.RowMatch.startEncRz
  | .startEncMan => Laws.RowMatch.startEncMan
  | .startEncDman => Laws.RowMatch.startEncDman
  | .startEncAmi => Laws.RowMatch.startEncAmi
  | .startEncPst => Laws.RowMatch.startEncPst
  | .startEnc2B1Q => Laws.RowMatch.startEnc2B1Q
  | .startDecUni => Laws.RowMatch.startDecUni
  | .startDecNrzl => Laws.RowMatch.startDecNrzl
  | .startDecNrzi => Laws.RowMatch.startDecNrzi
  | .startDecRz => Laws.RowMatch.startDecRz
  | .startDecMan => Laws.RowMatch.startDecMan
  | .startDecDman => Laws.RowMatch.startDecDman
  | .startDecAmi => Laws.RowMatch.startDecAmi
  | .startDecPst => Laws.RowMatch.startDecPst
  | .startDec2B1Q => Laws.RowMatch.startDec2B1Q
  | .push din => Laws.RowMatch.push din
  | .endCall => Laws.RowMatch.endCall

/-- R80: a word that decodes to an instruction selects the instruction's row. -/
theorem row_selects_of_decode {w : CommandWord} {i : Instr} (h : Sys2Proof.decode w = .instr i) :
    i.row.selects w = true := by
  have hselects := (rowMatch i).1
  have habsorb : (i.row.mask ||| Instr.operandMask i) &&& i.row.mask = i.row.mask := by
    ext k hk
    simp
    tauto
  rwa [OpcodeRow.selects, encode_of_decode h, BitVec.and_assoc, habsorb] at hselects

/-- Settles O3: the encoder's words are the assembler's, and a word is its four fields, of which the decoder keeps those under
the row's mask and the operand's. -/
theorem decodeAndEncodeAgree : Obligations.DecodeAndEncodeAgree := by
  refine ⟨fun i _ => decode_encode i, fun w i h => ⟨(rowMatch i).2, row_selects_of_decode h, ?_⟩⟩
  rw [encode_of_decode h]
  cases i <;> rfl

/-! ### The rows a word selects (R80, R81) -/

/-- R80: a row that looks at `cmd` alone is selected by the words of its command. -/
theorem cmd_of_match {cmd cmd' : BitVec 2} {d : Dir} {code : SchemeCode} {din : Lane}
    (h : assembleWord cmd d code din &&& 0x300#10 = assembleWord cmd' .enc 0#4 0#3) : cmd = cmd' := by
  simpa using congrArg cmdField ((and_cmdMask cmd d code din).symm.trans h)

/-- R80: only a word that decodes to an instruction of the row selects a row. -/
theorem decode_of_row_selects {w : CommandWord} {i : Instr} (h : i.row.selects w = true) :
    ∃ i', Sys2Proof.decode w = .instr i' ∧ i'.row = i.row := by
  have hmatch : w &&& i.row.mask = i.row.pattern := beq_iff_eq.mp h
  rw [← assembleWord_fields w] at hmatch ⊢
  generalize cmdField w = cmd, dirField w = d, schemeField w = code, dinField w = din at hmatch ⊢
  rcases instr_cases i with rfl | ⟨d', S, rfl⟩ | ⟨x, rfl⟩ | rfl
  · obtain rfl : cmd = 0b00#2 := cmd_of_match hmatch
    exact ⟨.nop, decode_nopFields .., rfl⟩
  · obtain ⟨hmask, hpattern, _⟩ := startInstr_row d' S
    rw [hmask, hpattern, and_selectorMask, startWord] at hmatch
    obtain rfl : cmd = 0b01#2 := by simpa using congrArg cmdField hmatch
    obtain rfl : d = d' := by simpa using congrArg dirField hmatch
    obtain rfl : code = S.code := by simpa using congrArg schemeField hmatch
    exact ⟨startInstr d S, by rw [decode_startWord, schemeOfCode_code], rfl⟩
  · obtain rfl : cmd = 0b10#2 := cmd_of_match hmatch
    exact ⟨.push din, decode_pushFields .., rfl⟩
  · obtain rfl : cmd = 0b11#2 := cmd_of_match hmatch
    exact ⟨.endCall, decode_endFields .., rfl⟩

/-- The instructions of the opcode map in its order, one for each row. -/
def rowInstrs : List Instr :=
  [.nop, .startEncUni, .startEncNrzl, .startEncNrzi, .startEncRz, .startEncMan, .startEncDman, .startEncAmi, .startEncPst,
    .startEnc2B1Q, .startDecUni, .startDecNrzl, .startDecNrzi, .startDecRz, .startDecMan, .startDecDman, .startDecAmi,
    .startDecPst, .startDec2B1Q, .push 0#3, .endCall]

theorem opcodeTable_eq_map : opcodeTable = rowInstrs.map Instr.row := rfl

theorem opcodeTable_nodup : opcodeTable.Nodup := by decide

/-- R80: a word that decodes to an instruction selects its row and no other. -/
theorem selects_iff_of_decode {w : CommandWord} {i : Instr} (h : Sys2Proof.decode w = .instr i) {r : OpcodeRow}
    (hr : r ∈ opcodeTable) : r.selects w = true ↔ r = i.row := by
  refine ⟨fun hselects => ?_, fun heq => heq ▸ row_selects_of_decode h⟩
  obtain ⟨j, _, rfl⟩ := List.mem_map.mp (opcodeTable_eq_map ▸ hr)
  obtain ⟨i', hi', hrow⟩ := decode_of_row_selects hselects
  rw [← hrow, Decoded.instr.inj (hi'.symm.trans h)]

theorem filter_selects_of_decode {w : CommandWord} {i : Instr} (h : Sys2Proof.decode w = .instr i) :
    opcodeTable.filter (fun r => r.selects w) = [i.row] := by
  have hcongr : ∀ r ∈ opcodeTable, r.selects w = (r == i.row) := fun r hr =>
    Bool.eq_iff_iff.mpr ((selects_iff_of_decode h hr).trans beq_iff_eq.symm)
  rw [List.filter_congr hcongr, List.filter_beq, List.count_eq_one_of_mem opcodeTable_nodup (rowMatch i).2,
    List.replicate_one]

/-- R81: a rejected word selects no row. -/
theorem filter_selects_of_illegal {w : CommandWord} {d : Dir} {code : SchemeCode}
    (h : Sys2Proof.decode w = .illegalSelection d code) : opcodeTable.filter (fun r => r.selects w) = [] := by
  refine List.filter_eq_nil_iff.mpr fun r hr hselects => ?_
  obtain ⟨j, _, rfl⟩ := List.mem_map.mp (opcodeTable_eq_map ▸ hr)
  obtain ⟨i, hi, _⟩ := decode_of_row_selects hselects
  exact nomatch hi.symm.trans h

/-- R81: the words the decoder rejects. -/
theorem isIllegalStart_iff (w : CommandWord) :
    isIllegalStart w = true ↔ ∃ d code, Sys2Proof.decode w = .illegalSelection d code := by
  cases w using word_cases with
  | nop d code din => simp [isIllegalStart, decode_nopFields]
  | start d code din =>
    have hnone := schemeOfCode_eq_none_iff code
    have hzero : code = 0#4 ↔ code.toNat = 0 := BitVec.toNat_eq
    cases hS : schemeOfCode code <;> simp_all [isIllegalStart, decode_startWord]
  | push d code din => simp [isIllegalStart, decode_pushFields]
  | endCall d code din => simp [isIllegalStart, decode_endFields]

/-- Settles O4: a word decodes to an instruction, whose row alone it selects, or is rejected and selects none. -/
theorem opcodeRowsAndIllegalStartsPartitionTheWords : Obligations.OpcodeRowsAndIllegalStartsPartitionTheWords := by
  refine ⟨rfl, fun w => ⟨?_, isIllegalStart_iff w⟩⟩
  cases h : Sys2Proof.decode w with
  | instr i =>
    have hlegal : ¬isIllegalStart w = true := by simp [isIllegalStart_iff, h]
    rw [if_neg hlegal, filter_selects_of_decode h, List.length_singleton]
  | illegalSelection d code =>
    rw [if_pos ((isIllegalStart_iff w).mpr ⟨d, code, h⟩), filter_selects_of_illegal h, List.length_nil]

end Sys2Proof.Machine
end

section
/-! A step of the machine: the START rows, the input a step takes, and runs as folds (R59, R80, R90, R93). -/

namespace Sys2Proof.Machine

/-- What a START row writes, register by register (R93). -/
theorem exec_startInstr_writes (d : Dir) (S : Scheme) (s : State) :
    exec (startInstr d S) s = .next { s with
      dir := d, scheme := S.code, level := 1#3, phase := false, st := .run, ecode := .eNone, out := [] } := by
  rw [exec_startInstr, State.started, State.initialised, tc3_initialLevel]

/-- Settles O14: the nine rows of direction ENC. -/
theorem startEncodeInstructions : Obligations.StartEncodeInstructions := fun s =>
  ⟨exec_startInstr_writes .enc .uni s, exec_startInstr_writes .enc .nrzl s, exec_startInstr_writes .enc .nrzi s,
    exec_startInstr_writes .enc .rz s, exec_startInstr_writes .enc .man s, exec_startInstr_writes .enc .dman s,
    exec_startInstr_writes .enc .ami s, exec_startInstr_writes .enc .pst s, exec_startInstr_writes .enc .twoB1Q s⟩

/-- Settles O15: the nine rows of direction DEC. -/
theorem startDecodeInstructions : Obligations.StartDecodeInstructions := fun s =>
  ⟨exec_startInstr_writes .dec .uni s, exec_startInstr_writes .dec .nrzl s, exec_startInstr_writes .dec .nrzi s,
    exec_startInstr_writes .dec .rz s, exec_startInstr_writes .dec .man s, exec_startInstr_writes .dec .dman s,
    exec_startInstr_writes .dec .ami s, exec_startInstr_writes .dec .pst s, exec_startInstr_writes .dec .twoB1Q s⟩

/-- The step when an input is presented (R59). -/
theorem step_of_pending {s : State} {p : PortInput} {ps : List PortInput} (h : s.pending = p :: ps) :
    step s = cycle p (s.awaiting ps) := by
  rcases step_cases s with ⟨hnil, _⟩ | ⟨p', ps', hcons, hstep⟩
  · exact nomatch hnil.symm.trans h
  · obtain ⟨rfl, rfl⟩ := List.cons.inj (hcons.symm.trans h)
    exact hstep

/-- The step when no input is presented (log 1). -/
theorem step_of_pending_nil {s : State} (h : s.pending = []) : step s = .refused .noCommandPresented := by
  rcases step_cases s with ⟨_, hstep⟩ | ⟨p, ps, hcons, _⟩
  · exact hstep
  · exact nomatch h.symm.trans hcons

/-- Settles O11: the presented word, the word put first, and the empty stream. -/
theorem stepRunsTheDecodedInstruction : Obligations.StepRunsTheDecodedInstruction :=
  ⟨fun _ _ _ _ hpending hdecode _ => (step_of_pending hpending).trans (cycle_word hdecode _),
    fun s nbits w _ hdecode => (step_withFetchWord s nbits w).trans (cycle_word hdecode s),
    fun _ => step_of_pending_nil⟩

/-- The step on the first input of a stream leaves the rest presented (R59). -/
theorem cycle_present (p : PortInput) (ps : List PortInput) (s : State) :
    cycle p (s.present ps) = mapNext (State.present ps) (cycle p s) := by
  refine (cycle_awaiting p s (ps ++ s.pending) s.out).trans ?_
  cases h : cycle p s with
  | next t => simp only [mapNext, State.awaiting, State.present, cycle_pending h]
  | fault r => rfl
  | refused r => rfl

/-- Settles O12: by induction on the stream, a step being `cycle` on its first input. -/
theorem stepsFoldTheInputs : Obligations.StepsFoldTheInputs := by
  intro ps s
  induction ps generalizing s with
  | nil => rfl
  | cons p ps ih =>
    have hstep : Sys2Proof.core.step (s.present (p :: ps)) = mapNext (State.present ps) (cycle p s) :=
      (step_present p ps s).trans (cycle_present p ps s)
    simp only [List.length_cons, Host.Core.run, hstep]
    cases h : cycle p s with
    | next t =>
      simp only [mapNext, ih, runInputs, h]
      cases runInputs ps t <;> rfl
    | fault r => simp only [mapNext, runInputs, h]
    | refused r => simp only [mapNext, runInputs, h]

end Sys2Proof.Machine
end

section
/-! PUSH by the unit function it runs, what a PUSH and an END leave unchanged, and what a raise writes (R35, R94 to R97, R190). -/

namespace Sys2Proof.Machine

variable {α β : Type}

/-! ### An accepted element (R94 to R96) -/

/-- What a codec answers to the element that completes a unit, `held` being the one before it where the unit has two. -/
def UnitFn.answer (u : UnitFn α β) (L : Int) (held x : α) : Except ECode (Int × List β) :=
  match u with
  | .one f => f L x
  | .two f => f L held x

/-- The first element of a pair is held, any other completes a unit. -/
theorem acceptElement_eq (u : UnitFn α β) (read : Lane → α) (wrap : β → Element) (x : Lane) (s : State) :
    (u.size = 2 ∧ s.phase = false ∧ acceptElement u read wrap x s = .next (s.held x)) ∨
    acceptElement u read wrap x s = finishUnit wrap (u.answer (sext3 s.level) (read s.hold) (read x)) s := by
  cases u with
  | one f => exact .inr rfl
  | two f =>
    cases hphase : s.phase with
    | false => exact .inl ⟨rfl, rfl, acceptElement_holds hphase read wrap x⟩
    | true => exact .inr (by rw [acceptElement, if_pos hphase, UnitFn.answer])

/-- Everything an accepted element can do. -/
theorem acceptElement_cases {u : UnitFn α β} {read : Lane → α} {wrap : β → Element} {x : Lane} {s t : State}
    (h : acceptElement u read wrap x s = .next t) :
    (u.size = 2 ∧ s.phase = false ∧ t = s.held x) ∨
    (∃ L' o, u.answer (sext3 s.level) (read s.hold) (read x) = .ok (L', o) ∧ t = s.completed L' (o.map wrap)) ∨
    (∃ e, u.answer (sext3 s.level) (read s.hold) (read x) = .error e ∧ t = s.raised e) := by
  rcases acceptElement_eq u read wrap x s with ⟨htwo, hphase, h'⟩ | h'
  · exact .inl ⟨htwo, hphase, Host.Outcome.next.inj (h.symm.trans h')⟩
  · exact .inr (finishUnit_cases (h'.symm.trans h))

/-- R96, R98: a well-formed element of an ENC call goes to the encoder the latched code selects. -/
theorem execPush_wellFormed {S : Scheme} {s : State} (hcall : InCall .enc S s) {x : Lane} (hx : isMalformedBit x = false) :
    exec (.push x) s = acceptElement (encoder S) bitOfLane .level x s := by
  rw [eq_bitLane_of_wellFormed hx, execPush_enc hcall]

/-- Everything a PUSH can be: ignored, a malformed bit, an element for an encoder or a decoder, or the fault of log 7. -/
theorem execPush_eq (x : Lane) (s : State) :
    (s.st ≠ .run ∧ exec (.push x) s = .next s.quiet) ∨
    (s.st = .run ∧ s.dir = .enc ∧ isMalformedBit x = true ∧ exec (.push x) s = .next (s.raised .eBadbit)) ∨
    (∃ S, InCall .enc S s ∧ isMalformedBit x = false ∧
      exec (.push x) s = acceptElement (encoder S) bitOfLane .level x s) ∨
    (∃ S, InCall .dec S s ∧ exec (.push x) s = acceptElement (decoder S) sext3 .bit x s) ∨
    (s.st = .run ∧ schemeOfCode s.scheme = none ∧ exec (.push x) s = .fault .noCodecSelected) := by
  by_cases hrun : s.st = .run
  swap
  · exact .inl ⟨hrun, execPush_ignored hrun x⟩
  refine .inr ?_
  cases hdir : s.dir with
  | enc =>
    cases hx : isMalformedBit x with
    | true => exact .inl ⟨hrun, rfl, rfl, execPush_badBit hrun hdir hx⟩
    | false =>
      cases hS : schemeOfCode s.scheme with
      | some S =>
        have hcall : InCall .enc S s := ⟨hrun, hdir, code_of_schemeOfCode hS⟩
        exact .inr (.inl ⟨S, hcall, rfl, execPush_wellFormed hcall hx⟩)
      | none => exact .inr (.inr (.inr ⟨hrun, rfl, by simp [exec, execPush, hrun, hdir, acceptBit, hx, hS]⟩))
  | dec =>
    cases hS : schemeOfCode s.scheme with
    | some S =>
      have hcall : InCall .dec S s := ⟨hrun, hdir, code_of_schemeOfCode hS⟩
      exact .inr (.inr (.inl ⟨S, hcall, execPush_dec hcall x⟩))
    | none => exact .inr (.inr (.inr ⟨hrun, rfl, by simp [exec, execPush, hrun, hdir, acceptSample, hS]⟩))

/-! ### Frames (R35) -/

/-- The encoders that keep a carried level are five (R122, R125 to R128). -/
theorem encoder_answer_level {S : Scheme} {L L' : Int} {b0 b : Bit} {o : List Int}
    (h : (encoder S).answer L b0 b = .ok (L', o)) :
    L' = L ∨ S.code = 3#4 ∨ S.code = 6#4 ∨ S.code = 7#4 ∨ S.code = 8#4 ∨ S.code = 9#4 := by
  cases S with
  | nrzi | dman | ami | pst | twoB1Q => exact .inr (by decide)
  | uni | nrzl | rz | man => cases h; exact .inl rfl

/-- The decoders that keep a carried level are four (R142, R145, R146, R148). -/
theorem decoder_answer_level {S : Scheme} {L L' a v : Int} {o : List Bit}
    (h : (decoder S).answer L a v = .ok (L', o)) :
    L' = L ∨ S.code = 3#4 ∨ S.code = 6#4 ∨ S.code = 7#4 ∨ S.code = 9#4 := by
  cases S with
  | nrzi | dman | ami | twoB1Q => exact .inr (by decide)
  | uni | nrzl | rz | pst => cases h; exact .inl rfl
  | man =>
    simp only [decoder, UnitFn.answer, decMan] at h
    split_ifs at h <;> cases h <;> exact .inl rfl

/-- An accepted element writes LEVEL only by completing a unit whose codec answers another level. -/
theorem acceptElement_level {u : UnitFn α β} {read : Lane → α} {wrap : β → Element} {x : Lane} {s t : State}
    (h : acceptElement u read wrap x s = .next t) :
    t.level = s.level ∨ (t.st = s.st ∧ t.phase = false ∧
      ∃ L' o, u.answer (sext3 s.level) (read s.hold) (read x) = .ok (L', o) ∧ L' ≠ sext3 s.level) := by
  rcases acceptElement_cases h with ⟨_, _, rfl⟩ | ⟨L', o, hanswer, rfl⟩ | ⟨e, _, rfl⟩
  · exact .inl rfl
  · by_cases hL : L' = sext3 s.level
    · exact .inl (by rw [State.completed_level, hL, tc3_sext3])
    · exact .inr ⟨rfl, rfl, L', o, hanswer, hL⟩
  · exact .inl rfl

/-- R35: which PUSHes write LEVEL. -/
theorem execPush_level {x : Lane} {s t : State} (h : exec (.push x) s = .next t) :
    t.level = s.level ∨ (s.st = .run ∧ t.st = .run ∧ t.phase = false ∧
      ((s.dir = .enc ∧ (s.scheme = 3#4 ∨ s.scheme = 6#4 ∨ s.scheme = 7#4 ∨ s.scheme = 8#4 ∨ s.scheme = 9#4)) ∨
       (s.dir = .dec ∧ (s.scheme = 3#4 ∨ s.scheme = 6#4 ∨ s.scheme = 7#4 ∨ s.scheme = 9#4)))) := by
  rcases execPush_eq x s with ⟨_, h'⟩ | ⟨_, _, _, h'⟩ | ⟨S, hcall, _, h'⟩ | ⟨S, hcall, h'⟩ | ⟨_, _, h'⟩ <;> rw [h'] at h
  · cases h; exact .inl rfl
  · cases h; exact .inl rfl
  · refine (acceptElement_level h).imp_right fun ⟨hst, hphase, L', o, hanswer, hL⟩ => ?_
    exact ⟨hcall.running, hst.trans hcall.running, hphase, .inl ⟨hcall.direction, hcall.selection ▸
      (encoder_answer_level hanswer).resolve_left hL⟩⟩
  · refine (acceptElement_level h).imp_right fun ⟨hst, hphase, L', o, hanswer, hL⟩ => ?_
    exact ⟨hcall.running, hst.trans hcall.running, hphase, .inr ⟨hcall.direction, hcall.selection ▸
      (decoder_answer_level hanswer).resolve_left hL⟩⟩
  · cases h

/-- Settles O28: the four things a PUSH does and the four an END does, with LEVEL by the codec's answer. -/
theorem pushAndEndFrame : Obligations.PushAndEndFrame := by
  refine ⟨fun din s t h => ?_, fun s t h => ?_⟩
  · have hlevel := execPush_level h
    rcases execPush_cases h with ⟨_, rfl⟩ | ⟨hrun, hphase, rfl⟩ | ⟨_, L', o, rfl⟩ | ⟨hrun, e, rfl⟩
    · exact ⟨rfl, rfl, rfl, rfl, rfl, .inl rfl, .inl rfl, hlevel⟩
    · exact ⟨rfl, rfl, rfl, rfl, rfl, .inr ⟨hrun, hphase, rfl, rfl⟩, .inl rfl, hlevel⟩
    · exact ⟨rfl, rfl, rfl, rfl, rfl, .inl rfl, .inl rfl, hlevel⟩
    · exact ⟨rfl, rfl, rfl, rfl, rfl, .inl rfl, .inr ⟨hrun, rfl⟩, hlevel⟩
  · rcases execEnd_cases s with ⟨_, h'⟩ | ⟨_, _, h'⟩ | ⟨hrun, _, _, h'⟩ | ⟨_, _, _, _, h'⟩ <;>
      obtain rfl := Host.Outcome.next.inj (h'.symm.trans h)
    · exact ⟨rfl, rfl, rfl, rfl, rfl, rfl, rfl, .inl rfl⟩
    · exact ⟨rfl, rfl, rfl, rfl, rfl, rfl, rfl, .inl rfl⟩
    · exact ⟨rfl, rfl, rfl, rfl, rfl, rfl, rfl, .inr ⟨hrun, rfl⟩⟩
    · exact ⟨rfl, rfl, rfl, rfl, rfl, rfl, rfl, .inl rfl⟩

/-! ### The error entry (R190) -/

/-- A PUSH that reaches ERR has raised an error. -/
theorem execPush_raised {x : Lane} {s t : State} (h : exec (.push x) s = .next t) (hs : s.st ≠ .err) (ht : t.st = .err) :
    ∃ e, e ≠ .eNone ∧ t = s.raised e := by
  cases execPush_outcome h with
  | ignored => exact absurd ht hs
  | holds | completes => exact absurd ht hs
  | raises _ e he => exact ⟨e, by rcases he with rfl | rfl | rfl <;> decide, rfl⟩

/-- An END that reaches ERR has raised E_ODDLEN. -/
theorem execEnd_raised {s t : State} (h : exec .endCall s = .next t) (hs : s.st ≠ .err) (ht : t.st = .err) :
    t = s.raised .eOddlen := by
  rcases execEnd_cases s with ⟨_, h'⟩ | ⟨_, _, h'⟩ | ⟨_, _, _, h'⟩ | ⟨_, _, _, _, h'⟩ <;>
    obtain rfl := Host.Outcome.next.inj (h'.symm.trans h)
  · exact absurd ht hs
  · exact absurd ht (by simp)
  · rfl
  · exact absurd ht (by simp)

/-- An input that does not abandon a call and reaches ERR has raised an error. -/
theorem cycle_raised {p : PortInput} {s t : State} (h : cycle p s = .next t) (hs : s.st ≠ .err) (ht : t.st = .err)
    (hp : p.abandons = false) : ∃ e, e ≠ .eNone ∧ t = s.raised e := by
  obtain ⟨hrst, hcmd⟩ : p.rst = false ∧ cmdField p.pv ≠ 1#2 := by simpa [PortInput.abandons] using hp
  rcases cycle_cases p s with ⟨hr, _⟩ | ⟨_, _, h'⟩ | ⟨_, _, _, hd, _⟩ | ⟨x, _, _, h'⟩ | ⟨_, _, h'⟩ | ⟨_, _, _, hd, _⟩
  · exact absurd (hr.symm.trans hrst) (by decide)
  · obtain rfl := Host.Outcome.next.inj (h'.symm.trans h)
    exact absurd ht hs
  · exact absurd (cmdField_of_start hd) hcmd
  · exact execPush_raised (h'.symm.trans h) hs ht
  · exact ⟨_, by decide, execEnd_raised (h'.symm.trans h) hs ht⟩
  · exact absurd (decode_illegal_spec hd).1 hcmd

/-- R74: an input whose `cmd` is 01 is START with the fields it has. -/
theorem cycle_start {p : PortInput} (hrst : p.rst = false) (hcmd : cmdField p.pv = 1#2) (s : State) :
    cycle p s = startCall (dirField p.pv) (schemeField p.pv) s := by
  have hp : p = .word (assembleWord 0b01#2 (dirField p.pv) (schemeField p.pv) (dinField p.pv)) := by
    rw [← hcmd, assembleWord_fields, PortInput.word, ← hrst]
  exact (congrArg (cycle · s) hp).trans (cycle_startWord ..)

/-- R181: an RST or START that reaches ERR is a START that selects no scheme. -/
theorem cycle_abandons_err {p : PortInput} {s t : State} (h : cycle p s = .next t) (ht : t.st = .err)
    (hp : p.abandons = true) : t = (s.initialised (dirField p.pv) (schemeField p.pv)).raised .eSelect := by
  cases hrst : p.rst with
  | true =>
    obtain rfl := Host.Outcome.next.inj ((cycle_rst p hrst s).symm.trans h)
    exact absurd ht (by simp)
  | false =>
    have hcmd : cmdField p.pv = 1#2 := by simpa [PortInput.abandons, hrst] using hp
    rw [cycle_start hrst hcmd] at h
    cases hS : schemeOfCode (schemeField p.pv) with
    | some S =>
      rw [code_of_schemeOfCode hS, startCall_legal] at h
      obtain rfl := Host.Outcome.next.inj h
      exact absurd ht (by simp)
    | none =>
      rw [startCall_illegal _ hS] at h
      exact (Host.Outcome.next.inj h).symm

/-- Settles O24: what `State.raised` writes, after START's writes where a START raises. -/
theorem raiseWritesOnlyStatusAndCode : Obligations.RaiseWritesOnlyStatusAndCode := by
  refine ⟨fun p s t h hs ht hp => ?_, fun p s t h ht hp => ?_⟩
  · obtain ⟨e, he, rfl⟩ := cycle_raised h hs ht hp
    exact ⟨rfl, he⟩
  · rw [cycle_abandons_err h ht hp, State.raised, State.initialised, tc3_initialLevel]

end Sys2Proof.Machine
end

section
/-! The invariant of the reached states: it holds after reset, every step keeps it, and in it every presented input is taken
(R21 to R27, R54, R90, R165, R187). -/

namespace Sys2Proof.Machine

variable {α β : Type}

/-! ### The errors of a call (R187) -/

theorem eBadbit_mem_callErrors (p : OddPolicy) (S : Scheme) : .eBadbit ∈ callErrors p .enc S := by
  cases p <;> cases S <;> decide

theorem eOddlen_mem_callErrors {p : OddPolicy} {d : Dir} {S : Scheme} (htwo : unitIn d S = 2)
    (hraises : d = .dec ∨ p = .reject) : .eOddlen ∈ callErrors p d S := by
  rcases (unitIn_eq_two_iff d S).mp htwo with ⟨rfl, rfl⟩ | ⟨rfl, rfl | rfl | rfl⟩
  · obtain rfl := hraises.resolve_left nofun
    decide
  all_goals simp [callErrors]

/-- The policy is about ENC calls only. -/
theorem callErrors_dec (p : OddPolicy) (S : Scheme) : callErrors p .dec S = callErrors .truncate .dec S := by
  cases S <;> rfl

/-! ### What a codec answers from a legal carried level (R21, R54, R165, R187) -/

/-- An answer that keeps the invariant of a call under `d` and `S`, its elements marked by `wrap`. -/
def IsLegalAnswer (p : OddPolicy) (d : Dir) (S : Scheme) (wrap : β → Element) : Except ECode (Int × List β) → Prop
  | .ok (L', o) => carries d S L' ∧ (-4 ≤ L' ∧ L' ≤ 3) ∧ o.length = unitOut d S ∧ ∀ v ∈ o, mayEmit d S (wrap v)
  | .error e => e ∈ callErrors p d S

theorem encoder_answer_legal (p : OddPolicy) {S : Scheme} {L : Int} (hL : carries .enc S L) (b0 b : Bit) :
    IsLegalAnswer p .enc S .level ((encoder S).answer L b0 b) := by
  rcases encoder_shape S with ⟨_, f, hf⟩ | ⟨_, f, hf⟩ <;> rw [hf, UnitFn.answer]
  · obtain ⟨L', o, hanswer, hcarries, hbounds, hlen, halphabet⟩ := encoder_one_legal hf b hL
    rw [hanswer]
    exact ⟨hcarries, hbounds, hlen, fun v hv => ⟨rfl, halphabet v hv⟩⟩
  · obtain ⟨L', o, hanswer, hcarries, hbounds, hlen, halphabet⟩ := encoder_two_legal hf b0 b hL
    rw [hanswer]
    exact ⟨hcarries, hbounds, hlen, fun v hv => ⟨rfl, halphabet v hv⟩⟩

theorem decoder_answer_legal (p : OddPolicy) {S : Scheme} {L : Int} (hL : carries .dec S L) (a : Int) {v : Int}
    (hv : -4 ≤ v ∧ v ≤ 3) : IsLegalAnswer p .dec S .bit ((decoder S).answer L a v) := by
  have hlegal : (∃ L' o, (decoder S).answer L a v = .ok (L', o) ∧ carries .dec S L' ∧ (-4 ≤ L' ∧ L' ≤ 3) ∧
      o.length = unitOut .dec S) ∨ (∃ e, (decoder S).answer L a v = .error e ∧ e ∈ callErrors .truncate .dec S) := by
    rcases decoder_shape S with ⟨_, f, hf⟩ | ⟨_, f, hf⟩ <;> rw [hf, UnitFn.answer]
    · exact decoder_one_legal hf hL hv
    · exact decoder_two_legal hf hL hv
  rcases hlegal with ⟨L', o, hanswer, hcarries, hbounds, hlen⟩ | ⟨e, hanswer, he⟩ <;> rw [hanswer]
  · exact ⟨hcarries, hbounds, hlen, fun _ _ => rfl⟩
  · rw [IsLegalAnswer, callErrors_dec]
    exact he

/-! ### The invariant in a call -/

/-- In a state that has a scheme the invariant is what that scheme makes legal. -/
theorem State.Inv.of_legalUnder {S : Scheme} {s : State} (hscheme : s.scheme = S.code)
    (hecode : s.st ≠ .err → s.ecode = .eNone) (h : s.LegalUnder S) : s.Inv where
  noError := hecode
  selected S' hS' := by
    rw [hscheme, schemeOfCode_code] at hS'
    exact Option.some.inj hS' ▸ h
  unselected hnone := by
    rw [hscheme, schemeOfCode_code] at hnone
    cases hnone

theorem State.Inv.legalUnder {d : Dir} {S : Scheme} {s : State} (h : s.Inv) (hcall : InCall d S s) : s.LegalUnder S :=
  h.selected S (by rw [hcall.selection, schemeOfCode_code])

/-- R24, R96: RUN implies a legal SCHEME. -/
theorem State.Inv.scheme_of_run {s : State} (h : s.Inv) (hrun : s.st = .run) : ∃ S, schemeOfCode s.scheme = some S := by
  cases hS : schemeOfCode s.scheme with
  | some S => exact ⟨S, rfl⟩
  | none =>
    rcases (h.unselected hS).phaseOfCall with ⟨hidle, _⟩ | ⟨herr, _⟩
    · exact absurd (hrun.symm.trans hidle) (by decide)
    · exact absurd (hrun.symm.trans herr) (by decide)

theorem State.Inv.inCall {s : State} (h : s.Inv) (hrun : s.st = .run) : ∃ S, InCall s.dir S s := by
  obtain ⟨S, hS⟩ := h.scheme_of_run hrun
  exact ⟨S, hrun, rfl, code_of_schemeOfCode hS⟩

/-! ### The register updates keep the invariant -/

theorem State.Inv.awaiting {s : State} (h : s.Inv) (ps : List PortInput) : (s.awaiting ps).Inv where
  noError := h.noError
  selected S hS := by
    obtain ⟨hstarted, hlevel, hpairs, hheldBit, herror, hemission⟩ := h.selected S hS
    exact ⟨hstarted, hlevel, hpairs, hheldBit, herror, hemission⟩
  unselected hnone := by
    obtain ⟨hlevel, hphase, hout, hst⟩ := h.unselected hnone
    exact ⟨hlevel, hphase, hout, hst⟩

theorem State.Inv.quiet {s : State} (h : s.Inv) : s.quiet.Inv where
  noError := h.noError
  selected S hS := by
    obtain ⟨hstarted, hlevel, hpairs, hheldBit, herror, _⟩ := h.selected S hS
    exact ⟨hstarted, hlevel, hpairs, hheldBit, herror, absurd rfl⟩
  unselected hnone := by
    obtain ⟨hlevel, hphase, _, hst⟩ := h.unselected hnone
    exact ⟨hlevel, hphase, rfl, hst⟩

theorem State.pinReset_inv (s : State) : s.pinReset.Inv where
  noError _ := rfl
  selected _ hS := nomatch hS
  unselected _ := ⟨rfl, rfl, rfl, .inl ⟨rfl, rfl, rfl⟩⟩

/-- R21: every call starts at a level it may carry. -/
theorem carries_one (d : Dir) (S : Scheme) : carries d S (sext3 1#3) := by
  have hone : sext3 1#3 = 1 := by decide
  rw [hone]
  cases d <;> cases S <;> simp [carries]

theorem State.started_inv (d : Dir) (S : Scheme) (s : State) : (s.started d S.code).Inv :=
  .of_legalUnder rfl (fun _ => rfl) {
    started := by simp
    level := by simpa using carries_one d S
    pairs := nofun
    heldBit := nofun
    error := nofun
    emission := absurd rfl }

theorem State.illegalStart_inv (d : Dir) {code : SchemeCode} (h : schemeOfCode code = none) (s : State) :
    ((s.initialised d code).raised .eSelect).Inv where
  noError hst := absurd rfl hst
  selected _ hS := nomatch h.symm.trans hS
  unselected _ := ⟨tc3_initialLevel, rfl, rfl, .inr ⟨rfl, rfl⟩⟩

section Call

variable {S : Scheme} {s : State} (h : s.Inv) (hcall : InCall s.dir S s)
include h hcall

theorem State.Inv.held (htwo : unitIn s.dir S = 2) {x : Lane} (hx : s.dir = .enc → x = 0#3 ∨ x = 1#3) : (s.held x).Inv :=
  have hlegal := h.legalUnder hcall
  .of_legalUnder hcall.selection h.noError {
    started := hlegal.started
    level := hlegal.level
    pairs := fun _ => ⟨htwo, by simp [hcall.running]⟩
    heldBit := fun _ => hx
    error := hlegal.error
    emission := absurd rfl }

theorem State.Inv.completed {L' : Int} {o : List Element} (hcarries : carries s.dir S L') (hbounds : -4 ≤ L' ∧ L' ≤ 3)
    (hlen : o.length = unitOut s.dir S) (ho : ∀ v ∈ o, mayEmit s.dir S v) : (s.completed L' o).Inv :=
  have hlegal := h.legalUnder hcall
  .of_legalUnder hcall.selection h.noError {
    started := hlegal.started
    level := by rw [State.completed_level, sext3_tc3 L' hbounds]; exact hcarries
    pairs := nofun
    heldBit := nofun
    error := hlegal.error
    emission := fun _ => ⟨hcall.running, hlen, ho⟩ }

theorem State.Inv.raised {e : ECode} (he : e ∈ callErrors s.policy s.dir S) : (s.raised e).Inv :=
  have hlegal := h.legalUnder hcall
  .of_legalUnder hcall.selection (absurd rfl) {
    started := by simp
    level := hlegal.level
    pairs := fun hphase => ⟨(hlegal.pairs hphase).1, by simp⟩
    heldBit := hlegal.heldBit
    error := fun _ => he
    emission := absurd rfl }

theorem State.Inv.ended (hphase : s.phase = false) : s.ended.Inv :=
  have hlegal := h.legalUnder hcall
  .of_legalUnder hcall.selection (fun _ => h.noError (by simp [hcall.running])) {
    started := by simp
    level := hlegal.level
    pairs := fun hphase' => nomatch hphase.symm.trans hphase'
    heldBit := hlegal.heldBit
    error := nofun
    emission := absurd rfl }

theorem State.Inv.dropped : s.dropped.Inv :=
  have hlegal := h.legalUnder hcall
  .of_legalUnder hcall.selection (fun _ => h.noError (by simp [hcall.running])) {
    started := by simp
    level := hlegal.level
    pairs := nofun
    heldBit := nofun
    error := nofun
    emission := absurd rfl }

/-- An element accepted by a codec of the call whose answer is legal. -/
theorem acceptElement_keeps_inv {u : UnitFn α β} {read : Lane → α} {wrap : β → Element} {x : Lane} {t : State}
    (hsize : u.size = unitIn s.dir S) (hx : s.dir = .enc → x = 0#3 ∨ x = 1#3)
    (hanswer : IsLegalAnswer s.policy s.dir S wrap (u.answer (sext3 s.level) (read s.hold) (read x)))
    (ht : acceptElement u read wrap x s = .next t) : t.Inv := by
  rcases acceptElement_cases ht with ⟨htwo, _, rfl⟩ | ⟨L', o, heq, rfl⟩ | ⟨e, heq, rfl⟩
  · exact h.held hcall (hsize.symm.trans htwo) hx
  · rw [heq] at hanswer
    obtain ⟨hcarries, hbounds, hlen, ho⟩ := hanswer
    exact h.completed hcall hcarries hbounds ((List.length_map wrap).trans hlen) (List.forall_mem_map.mpr ho)
  · rw [heq] at hanswer
    exact h.raised hcall hanswer

end Call

/-! ### Every step keeps the invariant -/

/-- R22, R76: an element that is not malformed is 0 or 1. -/
theorem eq_zero_or_one_of_wellFormed {x : Lane} (h : isMalformedBit x = false) : x = 0#3 ∨ x = 1#3 := by
  revert x; decide

theorem execPush_keeps_inv {x : Lane} {s t : State} (h : s.Inv) (ht : exec (.push x) s = .next t) : t.Inv := by
  rcases execPush_eq x s with ⟨_, h'⟩ | ⟨hrun, hdir, _, h'⟩ | ⟨S, hcall, hx, h'⟩ | ⟨S, hcall, h'⟩ | ⟨_, _, h'⟩ <;>
    rw [h'] at ht
  · cases ht; exact h.quiet
  · cases ht
    obtain ⟨S, hcall⟩ := h.inCall hrun
    exact h.raised hcall (hdir ▸ eBadbit_mem_callErrors s.policy S)
  · have hdir := hcall.direction
    have hL := (h.legalUnder hcall).level
    refine acceptElement_keeps_inv h (hdir ▸ hcall) (hdir ▸ encoder_size S) (fun _ => eq_zero_or_one_of_wellFormed hx) ?_ ht
    rw [hdir] at hL ⊢
    exact encoder_answer_legal s.policy hL _ _
  · have hdir := hcall.direction
    have hL := (h.legalUnder hcall).level
    refine acceptElement_keeps_inv h (hdir ▸ hcall) (hdir ▸ decoder_size S) (fun henc => nomatch hdir.symm.trans henc) ?_ ht
    rw [hdir] at hL ⊢
    exact decoder_answer_legal s.policy hL _ (sext3_bounds x)
  · cases ht

theorem execEnd_keeps_inv {s t : State} (h : s.Inv) (ht : exec .endCall s = .next t) : t.Inv := by
  rcases execEnd_cases s with ⟨_, h'⟩ | ⟨hrun, hphase, h'⟩ | ⟨hrun, hphase, hraises, h'⟩ | ⟨hrun, _, _, _, h'⟩ <;>
    obtain rfl := Host.Outcome.next.inj (h'.symm.trans ht)
  · exact h.quiet
  · obtain ⟨S, hcall⟩ := h.inCall hrun
    exact h.ended hcall hphase
  · obtain ⟨S, hcall⟩ := h.inCall hrun
    have htwo := ((h.legalUnder hcall).pairs hphase).1
    exact h.raised hcall (eOddlen_mem_callErrors htwo hraises)
  · obtain ⟨S, hcall⟩ := h.inCall hrun
    exact h.dropped hcall

theorem cycle_keeps_inv {p : PortInput} {s t : State} (h : s.Inv) (ht : cycle p s = .next t) : t.Inv := by
  rcases cycle_cases p s with ⟨_, h'⟩ | ⟨_, _, h'⟩ | ⟨d, S, _, _, h'⟩ | ⟨x, _, _, h'⟩ | ⟨_, _, h'⟩ | ⟨d, c, _, _, hc, h'⟩ <;>
    rw [h'] at ht
  · cases ht; exact s.pinReset_inv
  · cases ht; exact h.quiet
  · cases ht; exact s.started_inv d S
  · exact execPush_keeps_inv h ht
  · exact execEnd_keeps_inv h ht
  · cases ht; exact s.illegalStart_inv d hc

/-- Settles O9: a step takes an input, which keeps the invariant whatever command it is. -/
theorem everyStepKeepsTheInvariant : Obligations.EveryStepKeepsTheInvariant := by
  intro s t h ht
  cases hpending : s.pending with
  | nil => exact nomatch (step_of_pending_nil hpending).symm.trans ht
  | cons p ps =>
    rw [step_of_pending hpending] at ht
    exact cycle_keeps_inv (h.awaiting ps) ht

/-- R33: no scheme is selected after reset. -/
theorem State.reset_inv : State.reset.Inv where
  noError _ := rfl
  selected _ hS := nomatch hS
  unselected _ := ⟨rfl, rfl, rfl, .inl ⟨rfl, rfl, rfl⟩⟩

/-- Settles O8: the values of R33's column, and the invariant. -/
theorem resetStateHasTheSpecsValuesAndIsLegal : Obligations.ResetStateHasTheSpecsValuesAndIsLegal :=
  ⟨State.reset_inv, by decide, rfl, rfl, rfl, rfl, rfl, rfl, rfl⟩

/-! ### Every presented input is taken -/

theorem execPush_next {s : State} (h : s.st = .run → ∃ S, schemeOfCode s.scheme = some S) (x : Lane) :
    ∃ t, exec (.push x) s = .next t := by
  rcases execPush_eq x s with ⟨_, h'⟩ | ⟨_, _, _, h'⟩ | ⟨S, _, _, h'⟩ | ⟨S, _, h'⟩ | ⟨hrun, hnone, _⟩
  · exact ⟨_, h'⟩
  · exact ⟨_, h'⟩
  · rw [h']; exact acceptElement_next ..
  · rw [h']; exact acceptElement_next ..
  · obtain ⟨S, hS⟩ := h hrun
    exact nomatch hnone.symm.trans hS

theorem execEnd_next (s : State) : ∃ t, exec .endCall s = .next t := by
  rcases execEnd_cases s with ⟨_, h'⟩ | ⟨_, _, h'⟩ | ⟨_, _, _, h'⟩ | ⟨_, _, _, _, h'⟩ <;> exact ⟨_, h'⟩

/-- R90: the step is total where RUN implies a legal SCHEME. -/
theorem cycle_next {s : State} (h : s.st = .run → ∃ S, schemeOfCode s.scheme = some S) (p : PortInput) :
    ∃ t, cycle p s = .next t := by
  rcases cycle_cases p s with ⟨_, h'⟩ | ⟨_, _, h'⟩ | ⟨_, _, _, _, h'⟩ | ⟨x, _, _, h'⟩ | ⟨_, _, h'⟩ | ⟨_, _, _, _, _, h'⟩
  · exact ⟨_, h'⟩
  · exact ⟨_, h'⟩
  · exact ⟨_, h'⟩
  · rw [h']; exact execPush_next h x
  · rw [h']; exact execEnd_next s
  · exact ⟨_, h'⟩

/-- R32: no input writes the policy. -/
theorem cycle_policy {p : PortInput} {s t : State} (h : cycle p s = .next t) : t.policy = s.policy := by
  rcases cycle_cases p s with ⟨_, h'⟩ | ⟨_, _, h'⟩ | ⟨_, _, _, _, h'⟩ | ⟨x, _, _, h'⟩ | ⟨_, _, h'⟩ | ⟨_, _, _, _, _, h'⟩ <;>
    rw [h'] at h
  · cases h; rfl
  · cases h; rfl
  · cases h; rfl
  · obtain ⟨_, _, hpolicy, _⟩ := pushAndEndFrame.1 x s t h
    exact hpolicy
  · obtain ⟨_, _, _, _, hpolicy, _⟩ := pushAndEndFrame.2 s t h
    exact hpolicy
  · cases h; rfl

/-- Settles O10: the invariant shuts out the one stop of `cycle`; the frame of the step has the rest. -/
theorem everyPresentedInputIsTaken : Obligations.EveryPresentedInputIsTaken := by
  intro s p ps h hpending
  obtain ⟨t, ht⟩ := cycle_next (s := s.awaiting ps) h.scheme_of_run p
  exact ⟨t, (step_of_pending hpending).trans ht, cycle_pending ht, cycle_policy (s := s.awaiting ps) ht⟩

end Sys2Proof.Machine
end

section
/-! What a host cannot observe: HOLD while PHASE is 0, and all that was before a START (R22, R34, R93). -/

namespace Sys2Proof.Machine

variable {α β : Type}

/-! ### Steps from two states that differ in HOLD and the model's own fields -/

/-- The state with another HOLD, another counter of free values and other inputs to come. -/
def State.apart (h : Lane) (n : Nat) (q : List PortInput) (s : State) : State :=
  { s with hold := h, freeIndex := n, pending := q }

section Apart

variable {s t : State} {h : Lane} (n : Nat) (q : List PortInput) (hhold : s.phase = true → h = s.hold)
include hhold

theorem finishUnit_apart {wrap : β → Element} {r : Except ECode (Int × List β)} (ht : finishUnit wrap r s = .next t) :
    finishUnit wrap r (s.apart h n q) = .next (t.apart h n q) ∧ (t.phase = true → h = t.hold) := by
  rcases finishUnit_cases ht with ⟨L', o, rfl, rfl⟩ | ⟨e, rfl, rfl⟩
  · exact ⟨rfl, nofun⟩
  · exact ⟨rfl, hhold⟩

theorem acceptElement_apart {u : UnitFn α β} {read : Lane → α} {wrap : β → Element} {x : Lane}
    (ht : acceptElement u read wrap x s = .next t) :
    ∃ h', acceptElement u read wrap x (s.apart h n q) = .next (t.apart h' n q) ∧ (t.phase = true → h' = t.hold) := by
  cases u with
  | one f => exact ⟨h, finishUnit_apart n q hhold ht⟩
  | two f =>
    cases hphase : s.phase with
    | false =>
      obtain rfl := Host.Outcome.next.inj ((acceptElement_holds hphase read wrap x).symm.trans ht)
      exact ⟨x, acceptElement_holds (s := s.apart h n q) hphase read wrap x, fun _ => rfl⟩
    | true =>
      obtain rfl := hhold hphase
      simp only [acceptElement, hphase, if_true] at ht
      obtain ⟨hfinish, hsame⟩ := finishUnit_apart n q hhold ht
      refine ⟨s.hold, Eq.trans ?_ hfinish, hsame⟩
      exact if_pos hphase

theorem execPush_apart {x : Lane} (ht : exec (.push x) s = .next t) :
    ∃ h', exec (.push x) (s.apart h n q) = .next (t.apart h' n q) ∧ (t.phase = true → h' = t.hold) := by
  rcases execPush_eq x s with ⟨hidle, h'⟩ | ⟨hrun, hdir, hx, h'⟩ | ⟨S, hcall, hx, h'⟩ | ⟨S, hcall, h'⟩ | ⟨_, _, h'⟩ <;>
    rw [h'] at ht
  · cases ht
    exact ⟨h, execPush_ignored (s := s.apart h n q) hidle x, hhold⟩
  · cases ht
    exact ⟨h, execPush_badBit (s := s.apart h n q) hrun hdir hx, hhold⟩
  · have hcall' : InCall .enc S (s.apart h n q) := ⟨hcall.running, hcall.direction, hcall.selection⟩
    rw [execPush_wellFormed hcall' hx]
    exact acceptElement_apart n q hhold ht
  · have hcall' : InCall .dec S (s.apart h n q) := ⟨hcall.running, hcall.direction, hcall.selection⟩
    rw [execPush_dec hcall']
    exact acceptElement_apart n q hhold ht
  · cases ht

theorem execEnd_apart (ht : exec .endCall s = .next t) :
    exec .endCall (s.apart h n q) = .next (t.apart h n q) ∧ (t.phase = true → h = t.hold) := by
  rcases execEnd_cases s with ⟨hidle, h'⟩ | ⟨hrun, hphase, h'⟩ | ⟨hrun, hphase, hraises, h'⟩ |
    ⟨hrun, hphase, hdir, hpolicy, h'⟩ <;> obtain rfl := Host.Outcome.next.inj (h'.symm.trans ht)
  · exact ⟨execEnd_ignored (s := s.apart h n q) hidle, hhold⟩
  · exact ⟨execEnd_ended (s := s.apart h n q) hrun hphase, hhold⟩
  · refine ⟨(execEnd_dangling (s := s.apart h n q) hrun hphase).trans ?_, hhold⟩
    cases hdir : s.dir with
    | dec => exact endDangling_dec (s := s.apart h n q) hdir
    | enc => exact endDangling_reject (s := s.apart h n q) hdir (hraises.resolve_left (by simp [hdir]))
  · exact ⟨(execEnd_dangling (s := s.apart h n q) hrun hphase).trans (endDangling_truncate hdir hpolicy), nofun⟩

/-- No input tells two such states apart (R22, R34). -/
theorem cycle_apart {p : PortInput} (ht : cycle p s = .next t) :
    ∃ h' n', cycle p (s.apart h n q) = .next (t.apart h' n' q) ∧ (t.phase = true → h' = t.hold) ∧
      (n = s.freeIndex → n' = t.freeIndex) := by
  rcases cycle_cases p s with ⟨hr, h'⟩ | ⟨hr, hd, h'⟩ | ⟨d, S, hr, hd, h'⟩ | ⟨x, hr, hd, h'⟩ | ⟨hr, hd, h'⟩ |
    ⟨d, c, hr, hd, hc, h'⟩ <;> rw [h'] at ht
  · cases ht
    exact ⟨_, _, cycle_rst p hr _, nofun, congrArg (· + 1)⟩
  · cases ht
    exact ⟨h, n, cycle_instr p hr hd _, hhold, id⟩
  · cases ht
    exact ⟨h, n, (cycle_instr p hr hd _).trans (exec_startInstr d S _), nofun, id⟩
  · obtain ⟨h₁, hpush, hsame⟩ := execPush_apart n q hhold ht
    have hfree : t.freeIndex = s.freeIndex := by
      obtain ⟨_, _, _, _, hfree, _⟩ := pushAndEndFrame.1 x s t ht
      exact hfree
    exact ⟨h₁, n, (cycle_instr p hr hd _).trans hpush, hsame, fun hn => hn.trans hfree.symm⟩
  · obtain ⟨hend, hsame⟩ := execEnd_apart n q hhold ht
    have hfree : t.freeIndex = s.freeIndex := by
      obtain ⟨_, _, _, _, _, _, hfree, _⟩ := pushAndEndFrame.2 s t ht
      exact hfree
    exact ⟨h, n, (cycle_instr p hr hd _).trans hend, hsame, fun hn => hn.trans hfree.symm⟩
  · cases ht
    exact ⟨h, n, (cycle_illegal p hr hd _).trans (startCall_illegal d hc _), nofun, id⟩

end Apart

/-- Settles O26: the two states differ in HOLD alone, and so do the states after them. -/
theorem holdIsReadOnlyWhilePhaseIsSet : Obligations.HoldIsReadOnlyWhilePhaseIsSet := by
  intro p s h t hphase ht
  obtain ⟨h', n', hcycle, hsame, hfree⟩ :=
    cycle_apart (h := h) s.freeIndex s.pending (fun hset => nomatch hphase.symm.trans hset) ht
  obtain rfl := hfree rfl
  refine ⟨h', hcycle.trans ?_, hsame⟩
  rw [State.apart, ← cycle_pending ht]

/-! ### Runs -/

/-- A run that answers takes its first step and runs on (R90). -/
theorem runInputs_cons_inv {p : PortInput} {ps : List PortInput} {s u : State} {o : List Element}
    (h : runInputs (p :: ps) s = .next (u, o)) :
    ∃ t o', cycle p s = .next t ∧ runInputs ps t = .next (u, o') ∧ o = t.out ++ o' := by
  cases ht : cycle p s with
  | next t =>
    rw [runInputs_cons_next ht] at h
    cases hrest : runInputs ps t with
    | next r =>
      obtain ⟨u', o'⟩ := r
      rw [hrest] at h
      obtain ⟨rfl, rfl⟩ := Prod.mk.inj (Host.Outcome.next.inj h)
      exact ⟨t, o', rfl, hrest, rfl⟩
    | fault r => rw [hrest] at h; cases h
    | refused r => rw [hrest] at h; cases h
  | fault r => simp [runInputs, ht] at h
  | refused r => simp [runInputs, ht] at h

/-- No stream of inputs tells two such states apart. -/
theorem runInputs_apart {ps : List PortInput} {s u : State} {o : List Element} {h : Lane} (n : Nat) (q : List PortInput)
    (hhold : s.phase = true → h = s.hold) (hrun : runInputs ps s = .next (u, o)) :
    ∃ h' n', runInputs ps (s.apart h n q) = .next (u.apart h' n' q, o) ∧ (u.phase = true → h' = u.hold) := by
  induction ps generalizing s o h n with
  | nil => cases hrun; exact ⟨h, n, rfl, hhold⟩
  | cons p ps ih =>
    obtain ⟨t, o', ht, hrest, rfl⟩ := runInputs_cons_inv hrun
    obtain ⟨h₁, n₁, hcycle, hsame, _⟩ := cycle_apart n q hhold ht
    obtain ⟨h₂, n₂, hrest', hsame'⟩ := ih n₁ hsame hrest
    exact ⟨h₂, n₂, runInputs_cons hcycle ps hrest', hsame'⟩

/-- R93: a START writes all that two states of one policy can differ in but HOLD and the model's own fields. -/
theorem startCall_apart {s s' t : State} {d : Dir} {code : SchemeCode} (hpolicy : s.policy = s'.policy)
    (ht : startCall d code s = .next t) :
    startCall d code s' = .next (t.apart s'.hold s'.freeIndex s'.pending) ∧ t.phase = false := by
  cases hS : schemeOfCode code with
  | some S =>
    obtain rfl := code_of_schemeOfCode hS
    obtain rfl := Host.Outcome.next.inj ((startCall_legal d S s).symm.trans ht)
    rw [startCall_legal]
    exact ⟨by simp [State.apart, State.started, State.initialised, hpolicy], rfl⟩
  | none =>
    obtain rfl := Host.Outcome.next.inj ((startCall_illegal d hS s).symm.trans ht)
    rw [startCall_illegal d hS]
    exact ⟨by simp [State.apart, State.raised, State.initialised, hpolicy], rfl⟩

/-- Settles O27: after the START the two states differ in HOLD, with PHASE = 0, and in the model's own fields; no input that
follows tells them apart. -/
theorem callsDoNotDependOnTheirPast : Obligations.CallsDoNotDependOnTheirPast := by
  intro s s' p ps u o hpolicy hrst hcmd hrun
  obtain ⟨t, o', ht, hrest, rfl⟩ := runInputs_cons_inv hrun
  rw [cycle_start hrst hcmd] at ht
  obtain ⟨hstart, hphase⟩ := startCall_apart hpolicy ht
  obtain ⟨h', n', hrest', hsame⟩ := runInputs_apart (h := s'.hold) s'.freeIndex s'.pending
    (fun hset => nomatch hphase.symm.trans hset) hrest
  exact ⟨_, runInputs_cons ((cycle_start hrst hcmd s').trans hstart) ps hrest', rfl, hsame⟩

end Sys2Proof.Machine
end

section
/-! Calls that fail at the call level: the unit or the lone element at which a fold fails, and what the units before it
emit (R160, R161, R172). -/

namespace Sys2Proof.Machine

variable {α β : Type}

/-! ### One unit of a codec, whatever its answer -/

/-- `u.Answers L xs r`: from the carried level `L`, the codec answers the unit `xs` with `r` (R9), be the unit one element or two,
and be the answer a success, as `UnitFn.Gives` has it, or an error. -/
inductive UnitFn.Answers : UnitFn α β → Int → List α → Except ECode (Int × List β) → Prop
  | one {f : Int → α → Except ECode (Int × List β)} {L : Int} {x : α} : Answers (.one f) L [x] (f L x)
  | two {f : Int → α → α → Except ECode (Int × List β)} {L : Int} {x y : α} : Answers (.two f) L [x, y] (f L x y)

theorem UnitFn.exists_answers (u : UnitFn α β) (L : Int) {xs : List α} (h : xs.length = u.size) : ∃ r, u.Answers L xs r := by
  cases u with
  | one f => obtain ⟨x, rfl⟩ := List.length_eq_one_iff.mp h; exact ⟨_, .one⟩
  | two f => obtain ⟨x, y, rfl⟩ := List.length_eq_two.mp h; exact ⟨_, .two⟩

theorem UnitFn.size_eq_one_or_two (u : UnitFn α β) : u.size = 1 ∨ u.size = 2 := by
  cases u with
  | one f => exact .inl rfl
  | two f => exact .inr rfl

/-- An input is units of `n` elements, with a lone element at its end where a unit has two. -/
theorem units_induction {γ : Type} {n : Nat} (hn : n = 1 ∨ n = 2) {P : List γ → Prop} (nil : P [])
    (lone : ∀ x, n = 2 → P [x]) (unit : ∀ xs ys, xs.length = n → P ys → P (xs ++ ys)) (xs : List γ) : P xs := by
  rcases hn with rfl | rfl
  · induction xs with
    | nil => exact nil
    | cons x xs ih => exact unit [x] xs rfl ih
  · induction xs using List.twoStepInduction with
    | nil => exact nil
    | singleton x => exact lone x rfl
    | cons_cons x y xs ih => exact unit [x, y] xs rfl ih

/-! ### The folds by the answer to their first unit (R160, R161) -/

theorem UnitFn.fold_nil (u : UnitFn α β) (dangling : Option ECode) (L : Int) : u.fold dangling L [] = .ok [] := by
  cases u <;> rfl

theorem UnitFn.emitted_nil (u : UnitFn α β) (L : Int) : u.emitted L [] = [] := by
  cases u <;> rfl

theorem UnitFn.fold_lone {u : UnitFn α β} (h : u.size = 2) (L : Int) (x : α) :
    u.fold none L [x] = .ok [] ∧ ∀ e, u.fold (some e) L [x] = .error e := by
  cases u with
  | one f => cases h
  | two f => exact ⟨rfl, fun _ => rfl⟩

theorem UnitFn.emitted_lone {u : UnitFn α β} (h : u.size = 2) (L : Int) (x : α) : u.emitted L [x] = [] := by
  cases u with
  | one f => cases h
  | two f => rfl

theorem UnitFn.Answers.fold_ok {u : UnitFn α β} {L L' : Int} {xs : List α} {o : List β}
    (h : u.Answers L xs (.ok (L', o))) (dangling : Option ECode) (ys : List α) :
    u.fold dangling L (xs ++ ys) = (u.fold dangling L' ys).map (o ++ ·) := by
  generalize hr : Except.ok (L', o) = r at h
  cases h with
  | one => exact foldOne_ok hr.symm ys
  | two => exact foldTwo_ok hr.symm ys

theorem UnitFn.Answers.emitted_ok {u : UnitFn α β} {L L' : Int} {xs : List α} {o : List β}
    (h : u.Answers L xs (.ok (L', o))) (ys : List α) : u.emitted L (xs ++ ys) = o ++ u.emitted L' ys := by
  generalize hr : Except.ok (L', o) = r at h
  cases h with
  | one => exact emittedOne_ok hr.symm ys
  | two => exact emittedTwo_ok hr.symm ys

theorem UnitFn.Answers.fold_error {u : UnitFn α β} {L : Int} {xs : List α} {e : ECode}
    (h : u.Answers L xs (.error e)) (dangling : Option ECode) (ys : List α) : u.fold dangling L (xs ++ ys) = .error e := by
  generalize hr : Except.error e = r at h
  cases h with
  | one => exact foldOne_error hr.symm ys
  | two => exact foldTwo_error hr.symm ys

theorem UnitFn.Answers.emitted_error {u : UnitFn α β} {L : Int} {xs : List α} {e : ECode}
    (h : u.Answers L xs (.error e)) (ys : List α) : u.emitted L (xs ++ ys) = [] := by
  generalize hr : Except.error e = r at h
  cases h with
  | one => simp [UnitFn.emitted, emittedOne, ← hr]
  | two => simp [UnitFn.emitted, emittedTwo, ← hr]

/-! ### The errors of whole units (R9, R187) -/

/-- R9: no unit makes an encoder fail. -/
theorem encoder_answers_ne_error {S : Scheme} {L : Int} {xs : List Bit} {e : ECode} :
    ¬(encoder S).Answers L xs (.error e) := by
  intro h
  generalize hu : encoder S = u, hr : Except.error e = r at h
  cases h with
  | one => exact encoder_one_ne_error hu hr.symm
  | two => exact encoder_two_ne_error hu hr.symm

theorem decoder_answers_error {S : Scheme} {L : Int} {xs : List Int} {e : ECode}
    (h : (decoder S).Answers L xs (.error e)) : IsUnitError e := by
  generalize hu : decoder S = u, hr : Except.error e = r at h
  cases h with
  | one => exact decoder_one_error hu hr.symm
  | two => exact decoder_two_error hu hr.symm

/-! ### Where a call fails (R172) -/

/-- The input `xs` fails with `e` at the unit `unit`, which the units `front` come before. -/
structure UnitFn.FailsAtUnit (u : UnitFn α β) (dangling : Option ECode) (L : Int) (xs front unit : List α) (e : ECode) : Prop
    where
  split : front ++ unit <+: xs
  whole : u.size ∣ front.length
  length_unit : unit.length = u.size
  answer : ∃ L', u.Answers L' unit (.error e)
  fold_front : u.fold dangling L front = .ok (u.emitted L xs)
  fold_unit : u.fold dangling L (front ++ unit) = .error e

/-- The input `xs` fails with `e` at its last element, a lone one which the units `front` come before. -/
structure UnitFn.FailsAtLone (u : UnitFn α β) (dangling : Option ECode) (L : Int) (xs front : List α) (e : ECode) : Prop
    where
  split : ∃ x, xs = front ++ [x]
  pairs : u.size = 2
  whole : u.size ∣ front.length
  raises : dangling = some e
  fold_front : u.fold dangling L front = .ok (u.emitted L xs)

theorem UnitFn.FailsAtUnit.unit_append {u : UnitFn α β} {dangling : Option ECode} {L L' : Int} {xs ys front unit : List α}
    {o : List β} {e : ECode} (h : u.FailsAtUnit dangling L' ys front unit e) (hxs : xs.length = u.size)
    (hanswer : u.Answers L xs (.ok (L', o))) : u.FailsAtUnit dangling L (xs ++ ys) (xs ++ front) unit e where
  split := by rw [List.append_assoc]; exact (List.prefix_append_right_inj xs).mpr h.split
  whole := by rw [List.length_append, hxs]; exact (Nat.dvd_add_right (Nat.dvd_refl _)).mpr h.whole
  length_unit := h.length_unit
  answer := h.answer
  fold_front := by rw [hanswer.fold_ok, h.fold_front, hanswer.emitted_ok]; rfl
  fold_unit := by rw [List.append_assoc, hanswer.fold_ok, h.fold_unit]; rfl

theorem UnitFn.FailsAtLone.unit_append {u : UnitFn α β} {dangling : Option ECode} {L L' : Int} {xs ys front : List α}
    {o : List β} {e : ECode} (h : u.FailsAtLone dangling L' ys front e) (hxs : xs.length = u.size)
    (hanswer : u.Answers L xs (.ok (L', o))) : u.FailsAtLone dangling L (xs ++ ys) (xs ++ front) e where
  split := by
    obtain ⟨x, rfl⟩ := h.split
    exact ⟨x, (List.append_assoc ..).symm⟩
  pairs := h.pairs
  whole := by rw [List.length_append, hxs]; exact (Nat.dvd_add_right (Nat.dvd_refl _)).mpr h.whole
  raises := h.raises
  fold_front := by rw [hanswer.fold_ok, h.fold_front, hanswer.emitted_ok]; rfl

/-- A fold that fails does so at a unit or at a lone last element, the units before which have emitted what was emitted. -/
theorem fold_error_cases {u : UnitFn α β} {dangling : Option ECode} {L : Int} {xs : List α} {e : ECode}
    (h : u.fold dangling L xs = .error e) :
    (∃ front unit, u.FailsAtUnit dangling L xs front unit e) ∨ (∃ front, u.FailsAtLone dangling L xs front e) := by
  induction xs using units_induction u.size_eq_one_or_two generalizing L with
  | nil => rw [u.fold_nil] at h; cases h
  | lone x htwo =>
    obtain ⟨hnone, hsome⟩ := u.fold_lone htwo L x
    cases dangling with
    | none => exact nomatch hnone.symm.trans h
    | some e' =>
      obtain rfl := Except.error.inj ((hsome e').symm.trans h)
      exact .inr ⟨[], ⟨x, rfl⟩, htwo, Nat.dvd_zero _, rfl, by rw [u.fold_nil, u.emitted_lone htwo]⟩
  | unit xs ys hxs ih =>
    obtain ⟨r, hanswer⟩ := u.exists_answers L hxs
    cases r with
    | error e' =>
      obtain rfl := Except.error.inj ((hanswer.fold_error dangling ys).symm.trans h)
      have hunit := hanswer.fold_error dangling []
      rw [List.append_nil] at hunit
      exact .inl ⟨[], xs, List.prefix_append xs ys, Nat.dvd_zero _, hxs, ⟨L, hanswer⟩,
        by rw [u.fold_nil, hanswer.emitted_error], hunit⟩
    | ok r =>
      obtain ⟨L', o⟩ := r
      rw [hanswer.fold_ok] at h
      cases hrest : u.fold dangling L' ys with
      | ok out => rw [hrest] at h; cases h
      | error e' =>
        rw [hrest] at h
        obtain rfl := Except.error.inj h
        rcases ih hrest with ⟨front, unit, hfails⟩ | ⟨front, hfails⟩
        · exact .inl ⟨xs ++ front, unit, hfails.unit_append hxs hanswer⟩
        · exact .inr ⟨xs ++ front, hfails.unit_append hxs hanswer⟩

/-- Settles O59: a unit's error is no E_ODDLEN, so the error tells the unit from the lone sample. -/
theorem errorsHaveThePrefixProperty : Obligations.ErrorsHaveThePrefixProperty := by
  intro S sig e h
  rcases fold_error_cases h with ⟨front, unit, hfails⟩ | ⟨front, hfails⟩
  · obtain ⟨L', hanswer⟩ := hfails.answer
    refine ⟨fun _ => ?_, fun he => ?_⟩
    · obtain ⟨back, rfl⟩ := hfails.split
      obtain ⟨k, hk⟩ := hfails.whole
      have hunit := hfails.length_unit
      rw [decoder_size] at hk hunit
      have hfront : front.length = k * unitIn .dec S := hk.trans (Nat.mul_comm ..)
      have hboth : (front ++ unit).length = (k + 1) * unitIn .dec S := by
        rw [List.length_append, hfront, hunit, Nat.succ_mul]
      refine ⟨k, ?_, ?_, ?_⟩
      · rw [List.length_append, hboth]
        exact Nat.le_add_right ..
      · rw [List.append_assoc, List.take_left' hfront, ← List.append_assoc]
        exact hfails.fold_front
      · rw [List.take_left' hboth]
        exact hfails.fold_unit
    · rcases decoder_answers_error hanswer with rfl | rfl <;> cases he
  · have he : e = .eOddlen := (Option.some.inj hfails.raises).symm
    obtain ⟨x, rfl⟩ := hfails.split
    refine ⟨absurd he, fun _ => ?_⟩
    rw [List.dropLast_concat]
    exact hfails.fold_front

/-- R160: an encode call fails only at the lone last bit of a 2B1Q call under REJECT. -/
theorem encodeCall_error {p : OddPolicy} {S : Scheme} {bits : List Bit} {e : ECode} (h : encodeCall p S bits = .error e) :
    S = .twoB1Q ∧ bits.length % 2 = 1 ∧ p = .reject ∧ e = .eOddlen := by
  rcases fold_error_cases h with ⟨front, unit, hfails⟩ | ⟨front, hfails⟩
  · obtain ⟨L', hanswer⟩ := hfails.answer
    exact absurd hanswer encoder_answers_ne_error
  · have hS : S = .twoB1Q := by simpa using (unitIn_eq_two_iff .enc S).mp ((encoder_size S).symm.trans hfails.pairs)
    obtain ⟨x, rfl⟩ := hfails.split
    have hwhole := hfails.whole
    rw [hfails.pairs] at hwhole
    refine ⟨hS, by rw [List.length_append, List.length_singleton]; omega, ?_⟩
    cases p with
    | truncate => exact nomatch hfails.raises
    | reject => exact ⟨rfl, (Option.some.inj hfails.raises).symm⟩

end Sys2Proof.Machine
end

section
/-! Calls on the machine: START, one PUSH for each element and END compute the call-level functions, from any state and with
NOPs anywhere; the round trip on the machine (R160 to R162, R166, R185). -/

namespace Sys2Proof.Machine

variable {α β : Type}

/-! ### The states of a running call -/

/-- A call under `d` and `S` is running: the carried level is `L`, PHASE is `waiting`, nothing has failed, the policy is `p`. -/
structure CallState (d : Dir) (S : Scheme) (p : OddPolicy) (L : Int) (waiting : Bool) (s : State) : Prop where
  inCall : InCall d S s
  level : sext3 s.level = L
  legal : carries d S L
  phase : s.phase = waiting
  noError : s.ecode = .eNone
  policy : s.policy = p

theorem State.started_callState (d : Dir) (S : Scheme) (s : State) :
    CallState d S s.policy Config.initialLevel false (s.started d S.code) where
  inCall := ⟨rfl, rfl, rfl⟩
  level := by rw [State.started_level]; decide
  legal := (by decide : sext3 1#3 = Config.initialLevel) ▸ carries_one d S
  phase := rfl
  noError := rfl
  policy := rfl

section CallState

variable {d : Dir} {S : Scheme} {p : OddPolicy} {L : Int} {waiting : Bool} {s : State}

theorem CallState.held (h : CallState d S p L waiting s) (x : Lane) : CallState d S p L true (s.held x) :=
  ⟨⟨h.inCall.running, h.inCall.direction, h.inCall.selection⟩, h.level, h.legal, rfl, h.noError, h.policy⟩

theorem CallState.completed (h : CallState d S p L waiting s) {L' : Int} (hcarries : carries d S L')
    (hbounds : -4 ≤ L' ∧ L' ≤ 3) (o : List Element) : CallState d S p L' false (s.completed L' o) :=
  ⟨⟨h.inCall.running, h.inCall.direction, h.inCall.selection⟩, sext3_tc3 L' hbounds, hcarries, rfl, h.noError, h.policy⟩

end CallState

/-! ### The inputs of a call -/

/-- PUSH words, one for each element. -/
def pushInputs (xs : List Lane) : List PortInput := xs.map fun x => .word (pushWord x)

theorem callInputs_eq (d : Dir) (S : Scheme) (xs : List Lane) :
    callInputs d S xs = .word (startWord d S.code) :: (pushInputs xs ++ [.word endWord]) := by
  simp [callInputs, pushInputs]

theorem pushInputs_append (xs ys : List Lane) : pushInputs (xs ++ ys) = pushInputs xs ++ pushInputs ys := List.map_append

theorem cycle_pushWord (x : Lane) (s : State) : cycle (.word (pushWord x)) s = exec (.push x) s :=
  cycle_word (decode_pushWord x) s

theorem abandons_pushWord (x : Lane) : (PortInput.word (pushWord x)).abandons = false := by
  revert x; decide

theorem pushInputs_abandons (xs : List Lane) : ∀ q ∈ pushInputs xs, q.abandons = false :=
  List.forall_mem_map.mpr fun x _ => abandons_pushWord x

/-- R99: after a step that emitted nothing, inputs ignored outside RUN can be left out. -/
theorem runInputs_append_ignored {ps : List PortInput} {s : State} (hidle : s.st ≠ .run) (hout : s.out = [])
    (hps : ∀ q ∈ ps, q.abandons = false) (tail : List PortInput) : runInputs (ps ++ tail) s = runInputs tail s := by
  induction ps with
  | nil => rfl
  | cons q ps ih =>
    obtain ⟨hq, hrest⟩ := List.forall_mem_cons.mp hps
    rw [List.cons_append, runInputs_cons_next (cycle_ignored hq hidle), State.quiet_out, emittedAfter_nil,
      State.quiet_of_out hout, ih hrest]

theorem emittedAfter_emittedAfter (o o' : List Element) (r : RunResult) :
    emittedAfter o (emittedAfter o' r) = emittedAfter (o ++ o') r := by
  cases r <;> simp [emittedAfter]

/-! ### A codec on the machine -/

/-- The codec `u` runs the PUSHes of the calls under `d` and `S`, reading the lanes that `fits` allows through `read` and marking
its output by `wrap`; its carried levels stay legal. -/
structure UnitFn.Runs (u : UnitFn α β) (read : Lane → α) (wrap : β → Element) (d : Dir) (S : Scheme) (fits : Lane → Prop) :
    Prop where
  push : ∀ {s x}, InCall d S s → fits x → exec (.push x) s = acceptElement u read wrap x s
  legal : ∀ {L L' : Int} {xs : List Lane} {o : List β}, carries d S L → u.Answers L (xs.map read) (.ok (L', o)) →
    carries d S L' ∧ (-4 ≤ L' ∧ L' ≤ 3)

theorem exists_of_map_eq_pair {read : Lane → α} {xs : List Lane} {a c : α} (h : xs.map read = [a, c]) :
    ∃ x y, xs = [x, y] ∧ read x = a ∧ read y = c := by
  obtain ⟨x, ys, rfl, ha, hys⟩ := List.map_eq_cons_iff.mp h
  obtain ⟨y, rfl, hc⟩ := List.map_eq_singleton_iff.mp hys
  exact ⟨x, y, rfl, ha, hc⟩

/-- The answer to a unit is the answer to its last element. -/
theorem UnitFn.Answers.answer_eq {u : UnitFn α β} {L : Int} {read : Lane → α} {xs : List Lane}
    {r : Except ECode (Int × List β)} (h : u.Answers L (xs.map read) r) : ∃ a x, u.answer L a (read x) = r := by
  generalize hys : xs.map read = ys at h
  cases h with
  | one =>
    obtain ⟨x, rfl, rfl⟩ := List.map_eq_singleton_iff.mp hys
    exact ⟨read x, x, rfl⟩
  | @two f L a c =>
    obtain ⟨_, x, _, _, rfl⟩ := exists_of_map_eq_pair hys
    exact ⟨a, x, rfl⟩

theorem encoder_runs (S : Scheme) : (encoder S).Runs bitOfLane .level .enc S fun x => isMalformedBit x = false where
  push hcall hx := execPush_wellFormed hcall hx
  legal hL hanswer := by
    obtain ⟨a, x, heq⟩ := hanswer.answer_eq
    have hlegal := encoder_answer_legal .truncate hL a (bitOfLane x)
    rw [heq] at hlegal
    obtain ⟨hcarries, hbounds, _⟩ := hlegal
    exact ⟨hcarries, hbounds⟩

theorem decoder_runs (S : Scheme) : (decoder S).Runs sext3 .bit .dec S fun _ => True where
  push hcall _ := execPush_dec hcall _
  legal hL hanswer := by
    obtain ⟨a, x, heq⟩ := hanswer.answer_eq
    have hlegal := decoder_answer_legal .truncate hL a (sext3_bounds x)
    rw [heq] at hlegal
    obtain ⟨hcarries, hbounds, _⟩ := hlegal
    exact ⟨hcarries, hbounds⟩

/-- The machine after the elements `xs` of a call that started at the level `L`: in RUN, or failed at a unit. -/
inductive AfterPushes (u : UnitFn α β) (d : Dir) (S : Scheme) (p : OddPolicy) (L : Int) (xs : List α) : State → Prop
  | running {L' : Int} {waiting : Bool} {v : State} (hv : CallState d S p L' waiting v)
      (hfold : ∀ dangling, (waiting = true → dangling = none) → u.fold dangling L xs = .ok (u.emitted L xs))
      (hlone : waiting = true → ∀ e, u.fold (some e) L xs = .error e) : AfterPushes u d S p L xs v
  | failed {v : State} (hst : v.st = .err) (hfold : ∀ dangling, u.fold dangling L xs = .error v.ecode) :
      AfterPushes u d S p L xs v

theorem AfterPushes.unit_append {u : UnitFn α β} {d : Dir} {S : Scheme} {p : OddPolicy} {L L' : Int} {xs ys : List α}
    {o : List β} {v : State} (h : AfterPushes u d S p L' ys v) (hanswer : u.Answers L xs (.ok (L', o))) :
    AfterPushes u d S p L (xs ++ ys) v := by
  cases h with
  | running hv hfold hlone =>
    refine .running hv (fun dangling hd => ?_) (fun hwaiting e => ?_)
    · rw [hanswer.fold_ok, hfold dangling hd, hanswer.emitted_ok]; rfl
    · rw [hanswer.fold_ok, hlone hwaiting e]; rfl
  | failed hst hfold =>
    refine .failed hst fun dangling => ?_
    rw [hanswer.fold_ok, hfold dangling]; rfl

section Run

variable {u : UnitFn α β} {read : Lane → α} {wrap : β → Element} {d : Dir} {S : Scheme} {fits : Lane → Prop}
  {p : OddPolicy} {L : Int} {s : State} {xs : List Lane}
  (hu : u.Runs read wrap d S fits) (hs : CallState d S p L false s) (hxs : ∀ x ∈ xs, fits x)
include hu hs hxs

/-- The PUSHes of one unit end with the end of the unit, and only that step emits. -/
theorem runInputs_unit {r : Except ECode (Int × List β)} (hanswer : u.Answers L (xs.map read) r) (tail : List PortInput) :
    ∃ waiting s' t, CallState d S p L waiting s' ∧ finishUnit wrap r s' = .next t ∧
      runInputs (pushInputs xs ++ tail) s = emittedAfter t.out (runInputs tail t) := by
  generalize hys : xs.map read = ys at hanswer
  cases hanswer with
  | @one f L x =>
    obtain ⟨x, rfl, rfl⟩ := List.map_eq_singleton_iff.mp hys
    obtain ⟨t, ht⟩ := finishUnit_next wrap (f L (read x)) s
    have hx : cycle (.word (pushWord x)) s = .next t := by
      rw [cycle_pushWord, hu.push hs.inCall (hxs x (by simp)), acceptElement, hs.level, ht]
    exact ⟨false, s, t, hs, ht, runInputs_cons_next hx tail⟩
  | @two f L a c =>
    obtain ⟨x, y, rfl, rfl, rfl⟩ := exists_of_map_eq_pair hys
    obtain ⟨t, ht⟩ := finishUnit_next wrap (f L (read x) (read y)) (s.held x)
    have hs' := hs.held x
    have hx : cycle (.word (pushWord x)) s = .next (s.held x) := by
      rw [cycle_pushWord, hu.push hs.inCall (hxs x (by simp)), acceptElement_holds hs.phase]
    have hy : cycle (.word (pushWord y)) (s.held x) = .next t := by
      rw [cycle_pushWord, hu.push hs'.inCall (hxs y (by simp)), acceptElement, if_pos hs'.phase, hs'.level]
      exact ht
    exact ⟨true, s.held x, t, hs', ht, (runInputs_cons_next hx _).trans
      ((emittedAfter_nil _).trans (runInputs_cons_next hy tail))⟩

/-- The PUSHes of a call emit what its complete units emit, and leave the machine in RUN or failed. -/
theorem runInputs_pushes (tail : List PortInput) :
    ∃ v, AfterPushes u d S p L (xs.map read) v ∧
      runInputs (pushInputs xs ++ tail) s = emittedAfter ((u.emitted L (xs.map read)).map wrap) (runInputs tail v) := by
  induction xs using units_induction u.size_eq_one_or_two generalizing L s with
  | nil =>
    refine ⟨s, .running hs (fun dangling _ => ?_) nofun, ?_⟩
    · rw [List.map_nil, u.fold_nil, u.emitted_nil]
    · rw [List.map_nil, u.emitted_nil]
      exact (emittedAfter_nil _).symm
  | lone x htwo =>
    have hx : cycle (.word (pushWord x)) s = .next (s.held x) := by
      rw [cycle_pushWord, hu.push hs.inCall (hxs x (by simp))]
      cases u with
      | one f => cases htwo
      | two f => exact acceptElement_holds hs.phase read wrap x
    obtain ⟨hnone, hsome⟩ := u.fold_lone htwo L (read x)
    refine ⟨s.held x, .running (hs.held x) (fun dangling hd => ?_) (fun _ => hsome), ?_⟩
    · rw [hd rfl, List.map_singleton, u.emitted_lone htwo]
      exact hnone
    · rw [List.map_singleton, u.emitted_lone htwo]
      exact runInputs_cons_next hx tail
  | unit xs ys hlen ih =>
    obtain ⟨hxs, hys⟩ := List.forall_mem_append.mp hxs
    obtain ⟨r, hanswer⟩ := u.exists_answers L ((List.length_map (as := xs) read).trans hlen)
    obtain ⟨waiting, s', t, hs', hfinish, hrun⟩ := runInputs_unit hu hs hxs hanswer (pushInputs ys ++ tail)
    rw [List.map_append, pushInputs_append, List.append_assoc, hrun]
    rcases finishUnit_cases hfinish with ⟨L', o, rfl, rfl⟩ | ⟨e, rfl, rfl⟩
    · obtain ⟨hcarries, hbounds⟩ := hu.legal hs.legal hanswer
      obtain ⟨v, hv, hrest⟩ := ih (hs'.completed hcarries hbounds (o.map wrap)) hys
      refine ⟨v, hv.unit_append hanswer, ?_⟩
      rw [hrest, hanswer.emitted_ok, List.map_append, emittedAfter_emittedAfter, State.completed_out]
    · refine ⟨s'.raised e, .failed rfl fun dangling => hanswer.fold_error dangling _, ?_⟩
      rw [hanswer.emitted_error, runInputs_append_ignored (by simp) rfl (pushInputs_abandons ys)]
      rfl

end Run

/-! ### The end of a call -/

/-- What END raises when an element dangles (R97). -/
def endError : Dir → OddPolicy → Option ECode
  | .dec, _ => some .eOddlen
  | .enc, p => danglingError p

theorem endDangling_eq {s : State} {d : Dir} {p : OddPolicy} (hdir : s.dir = d) (hpolicy : s.policy = p) :
    (endError d p = none ∧ endDangling s = .next s.dropped) ∨
    (∃ e, endError d p = some e ∧ endDangling s = .next (s.raised e)) := by
  cases d with
  | dec => exact .inr ⟨_, rfl, endDangling_dec hdir⟩
  | enc =>
    cases p with
    | truncate => exact .inl ⟨rfl, endDangling_truncate hdir hpolicy⟩
    | reject => exact .inr ⟨_, rfl, endDangling_reject hdir hpolicy⟩

/-- The state `w` shows the answer `r` of a call that has emitted `o`. -/
def Ended (o : List β) (r : Except ECode (List β)) (w : State) : Prop :=
  match r with
  | .ok out => w.st = .done ∧ w.ecode = .eNone ∧ out = o
  | .error e => w.st = .err ∧ w.ecode = e

/-- END after the PUSHes of a call gives the answer of the call-level function. -/
theorem cycle_end_afterPushes {u : UnitFn α β} {d : Dir} {S : Scheme} {p : OddPolicy} {L : Int} {xs : List α} {v : State}
    (hv : AfterPushes u d S p L xs v) :
    ∃ w, cycle (.word endWord) v = .next w ∧ w.out = [] ∧ Ended (u.emitted L xs) (u.fold (endError d p) L xs) w := by
  rw [cycle_word decode_endWord]
  cases hv with
  | @running L' waiting v hv hfold hlone =>
    have hrun := hv.inCall.running
    cases waiting with
    | false =>
      rw [hfold _ nofun]
      exact ⟨_, execEnd_ended hrun hv.phase, rfl, rfl, hv.noError, rfl⟩
    | true =>
      rw [execEnd_dangling hrun hv.phase]
      rcases endDangling_eq hv.inCall.direction hv.policy with ⟨hnone, hend⟩ | ⟨e, hsome, hend⟩
      · rw [hfold _ fun _ => hnone]
        exact ⟨_, hend, rfl, rfl, hv.noError, rfl⟩
      · rw [hsome, hlone rfl e]
        exact ⟨_, hend, rfl, rfl, rfl⟩
  | failed hst hfold =>
    rw [hfold]
    exact ⟨_, execEnd_ignored (by simp [hst]), rfl, hst, rfl⟩

theorem cycle_start_call (d : Dir) (S : Scheme) (s : State) :
    cycle (.word (startWord d S.code)) s = .next (s.started d S.code) :=
  (cycle_startWord d S.code 0#3 s).trans (startCall_legal d S s)

/-- A call on the machine computes its codec's fold (R162). -/
theorem runInputs_call {u : UnitFn α β} {read : Lane → α} {wrap : β → Element} {d : Dir} {S : Scheme} {fits : Lane → Prop}
    (hu : u.Runs read wrap d S fits) (s : State) {xs : List Lane} (hxs : ∀ x ∈ xs, fits x) :
    ∃ w, runInputs (callInputs d S xs) s = .next (w, (u.emitted Config.initialLevel (xs.map read)).map wrap) ∧
      Ended (u.emitted Config.initialLevel (xs.map read)) (u.fold (endError d s.policy) Config.initialLevel (xs.map read)) w := by
  obtain ⟨v, hv, hrun⟩ := runInputs_pushes hu (s.started_callState d S) hxs [.word endWord]
  obtain ⟨w, hend, hout, hended⟩ := cycle_end_afterPushes hv
  refine ⟨w, ?_, hended⟩
  rw [callInputs_eq, runInputs_cons_next (cycle_start_call d S s), hrun, runInputs_cons_next hend, hout]
  simp [runInputs, emittedAfter]

/-- R92: a stream with the commands of another has its output and its end status. -/
theorem exists_run_of_commandsOf {ps qs : List PortInput} (h : commandsOf ps = commandsOf qs) {s w : State}
    {o : List Element} (hrun : runInputs ps s = .next (w, o)) :
    ∃ w', runInputs qs s = .next (w', o) ∧ w'.st = w.st ∧ w'.ecode = w.ecode := by
  obtain ⟨w', hrun', hw'⟩ := nopHasNoEffect.2 ps qs s w o h hrun
  exact ⟨w', hrun', by rw [hw'], by rw [hw']⟩

theorem Ended.congr {o : List β} {r : Except ECode (List β)} {w w' : State} (h : Ended o r w) (hst : w'.st = w.st)
    (hecode : w'.ecode = w.ecode) : Ended o r w' := by
  unfold Ended
  rw [hst, hecode]
  exact h

theorem isMalformedBit_eq_false_iff (x : Lane) : isMalformedBit x = false ↔ x.toNat ≤ 1 := by
  rw [← Bool.not_eq_true, isMalformedBit_iff]
  omega

/-- An encode call whose elements are bits. -/
theorem runInputs_encodeCall (s : State) (S : Scheme) {xs : List Lane} (hxs : ∀ x ∈ xs, x.toNat ≤ 1) :
    ∃ w, runInputs (callInputs .enc S xs) s = .next (w, (encodeEmitted S (xs.map bitOfLane)).map .level) ∧
      Ended (encodeEmitted S (xs.map bitOfLane)) (encodeCall s.policy S (xs.map bitOfLane)) w :=
  runInputs_call (encoder_runs S) s fun x hx => (isMalformedBit_eq_false_iff x).mpr (hxs x hx)

theorem runInputs_decodeCall (s : State) (S : Scheme) (xs : List Lane) :
    ∃ w, runInputs (callInputs .dec S xs) s = .next (w, (decodeEmitted S (xs.map sext3)).map .bit) ∧
      Ended (decodeEmitted S (xs.map sext3)) (decodeCall S (xs.map sext3)) w :=
  runInputs_call (decoder_runs S) s fun _ _ => trivial

/-- R185: after the PUSHes of bits a malformed one raises E_BADBIT. -/
theorem cycle_badBit_afterPushes {S : Scheme} {p : OddPolicy} {L : Int} {bits : List Bit} {v : State}
    (hv : AfterPushes (encoder S) .enc S p L bits v) {bad : Lane} (hbad : 2 ≤ bad.toNat) :
    cycle (.word (pushWord bad)) v = .next (v.raised .eBadbit) := by
  cases hv with
  | running hv _ _ =>
    rw [cycle_pushWord]
    exact execPush_badBit hv.inCall.running hv.inCall.direction ((isMalformedBit_iff bad).mpr hbad)
  | failed _ hfold =>
    rcases fold_error_cases (hfold none) with ⟨front, unit, hfails⟩ | ⟨front, hfails⟩
    · obtain ⟨L', hanswer⟩ := hfails.answer
      exact absurd hanswer encoder_answers_ne_error
    · exact nomatch hfails.raises

/-- An encode call with a malformed element. -/
theorem runInputs_encodeCall_badBit (s : State) (S : Scheme) {front : List Lane} (hfront : ∀ x ∈ front, x.toNat ≤ 1)
    {bad : Lane} (hbad : 2 ≤ bad.toNat) (back : List Lane) :
    ∃ w, runInputs (callInputs .enc S (front ++ bad :: back)) s =
        .next (w, (encodeEmitted S (front.map bitOfLane)).map .level) ∧ w.st = .err ∧ w.ecode = .eBadbit := by
  have hbits : ∀ x ∈ front, isMalformedBit x = false := fun x hx => (isMalformedBit_eq_false_iff x).mpr (hfront x hx)
  obtain ⟨v, hv, hrun⟩ := runInputs_pushes (encoder_runs S) (s.started_callState .enc S) hbits
    (.word (pushWord bad) :: (pushInputs back ++ [.word endWord]))
  have hignored : runInputs (pushInputs back ++ [.word endWord]) (v.raised .eBadbit) = .next (v.raised .eBadbit, []) := by
    refine runInputs_ignored_of_out (by simp) rfl fun q hq => ?_
    rcases List.mem_append.mp hq with hq | hq
    · exact pushInputs_abandons back q hq
    · obtain rfl := List.mem_singleton.mp hq
      decide
  refine ⟨v.raised .eBadbit, ?_, rfl, rfl⟩
  have hinputs : callInputs .enc S (front ++ bad :: back) = .word (startWord .enc S.code) ::
      (pushInputs front ++ .word (pushWord bad) :: (pushInputs back ++ [.word endWord])) := by
    simp [callInputs_eq, pushInputs]
  rw [hinputs, runInputs_cons_next (cycle_start_call .enc S s), hrun,
    runInputs_cons_next (cycle_badBit_afterPushes hv hbad), hignored]
  simp [emittedAfter, encodeEmitted]

/-- Settles O48: the call without NOPs, whose end status the call's commands decide. -/
theorem encodeCallRunsTheCallLevelFunction : Obligations.EncodeCallRunsTheCallLevelFunction := by
  intro s S xs ps hps
  have hcmds : commandsOf (callInputs .enc S xs) = commandsOf ps := (commandsOf_callInputs .enc S xs).trans hps.symm
  refine ⟨fun hxs => ?_, fun front bad back hsplit hfront hbad => ?_⟩
  · obtain ⟨w, hrun, hended⟩ := runInputs_encodeCall s S hxs
    obtain ⟨w', hrun', hst, hecode⟩ := exists_run_of_commandsOf hcmds hrun
    refine ⟨w', hrun', ?_⟩
    replace hended := hended.congr hst hecode
    generalize encodeCall s.policy S (xs.map bitOfLane) = r at hended ⊢
    cases r <;> exact hended
  · subst hsplit
    obtain ⟨w, hrun, herr, hbadBit⟩ := runInputs_encodeCall_badBit s S hfront hbad back
    obtain ⟨w', hrun', hst, hecode⟩ := exists_run_of_commandsOf hcmds hrun
    exact ⟨w', hrun', hst.trans herr, hecode.trans hbadBit⟩

/-- Settles O49: the call without NOPs, whose end status the call's commands decide. -/
theorem decodeCallRunsTheCallLevelFunction : Obligations.DecodeCallRunsTheCallLevelFunction := by
  intro s S xs ps hps
  have hcmds : commandsOf (callInputs .dec S xs) = commandsOf ps := (commandsOf_callInputs .dec S xs).trans hps.symm
  obtain ⟨w, hrun, hended⟩ := runInputs_decodeCall s S xs
  obtain ⟨w', hrun', hst, hecode⟩ := exists_run_of_commandsOf hcmds hrun
  refine ⟨w', hrun', ?_⟩
  replace hended := hended.congr hst hecode
  generalize decodeCall S (xs.map sext3) = r at hended ⊢
  cases r <;> exact hended

/-! ### The round trip on the machine (R166) -/

/-- The encode call of a bit string. -/
theorem runInputs_encodeBits (s : State) (S : Scheme) (bits : List Bit) :
    ∃ w, runInputs (callInputs .enc S (bits.map bitLane)) s = .next (w, (encodeEmitted S bits).map .level) ∧
      Ended (encodeEmitted S bits) (encodeCall s.policy S bits) w := by
  have hread : (bits.map bitLane).map bitOfLane = bits := by
    rw [List.map_map]
    exact (List.map_congr_left fun b _ => bitOfLane_bitLane b).trans (List.map_id bits)
  have hfits : ∀ x ∈ bits.map bitLane, x.toNat ≤ 1 :=
    List.forall_mem_map.mpr fun b _ => (isMalformedBit_eq_false_iff _).mp (isMalformedBit_bitLane b)
  have hcall := runInputs_encodeCall s S hfits
  rwa [hread] at hcall

/-- R165: an encoded signal comes back from its lanes. -/
theorem map_sext3_tc3_of_encodeCall {p : OddPolicy} {S : Scheme} {bits : List Bit} {sig : List Int}
    (h : encodeCall p S bits = .ok sig) : (sig.map tc3).map sext3 = sig := by
  rw [List.map_map]
  refine (List.map_congr_left fun v hv => ?_).trans (List.map_id sig)
  obtain ⟨_, _, hlane⟩ := emittedLevelsAreInTheAlphabet.1 p S bits sig h v hv
  exact hlane

/-- Settles O50: both calls compute their call-level functions, for which the round trip is R166. -/
theorem machineRoundTrip : Obligations.MachineRoundTrip := by
  refine ⟨fun s s' S bits hnot => ?_, fun s bits hodd hreject => ?_⟩
  · obtain ⟨u, hrun, hended⟩ := runInputs_encodeBits s S bits
    cases hencode : encodeCall s.policy S bits with
    | error e =>
      obtain ⟨hS, hodd, hreject, _⟩ := encodeCall_error hencode
      exact absurd ⟨hS, hodd, hreject⟩ hnot
    | ok sig =>
      rw [hencode] at hended
      obtain ⟨hdone, _, hsig⟩ := hended
      rw [← hsig] at hrun
      obtain ⟨u', hrun', hended'⟩ := runInputs_decodeCall s' S (sig.map tc3)
      obtain ⟨hdecode, _⟩ := roundTripLaw s.policy S bits sig hencode
      rw [map_sext3_tc3_of_encodeCall hencode] at hrun' hended'
      rw [hdecode] at hended'
      obtain ⟨hdone', _, hbits⟩ := hended'
      exact ⟨u, u', sig, hrun, hdone, hbits ▸ hrun', hdone'⟩
  · obtain ⟨u, hrun, hended⟩ := runInputs_encodeBits s .twoB1Q bits
    cases hencode : encodeCall s.policy .twoB1Q bits with
    | ok sig => exact nomatch (policy_of_encode_odd hencode hodd).symm.trans hreject
    | error e =>
      obtain ⟨_, _, _, rfl⟩ := encodeCall_error hencode
      rw [hencode] at hended
      obtain ⟨herr, hoddlen⟩ := hended
      exact ⟨u, _, hrun, herr, hoddlen⟩

end Sys2Proof.Machine
end
